-- ==== Sys2Proof/Word.lean ====
section
/-!
DEFINITION. The words of CBX: a 32-bit bus word (R7 `BUSW`), a byte lane (R62) and a magnitude of
`MAGW = 2048` bits (R7, R26). They are abbreviations, so the library's bit-vector lemmas apply.
-/

namespace Sys2Proof

/-- One byte lane of the bus (R62). -/
abbrev Byte := BitVec 8

/-- One 32-bit word: the width of the bus and of every plain register (R7, R61). -/
abbrev Word := BitVec 32

/-- The MAG part of a target-format register: `MAGW = 2048` bits, unsigned (R7, R26). -/
abbrev Magnitude := BitVec 2048

end Sys2Proof
end

