-- ==== Sys2Proof/Syntax.lean ====
section
/-!
DEFINITION. The four commands of CBX (R95), one constructor per row of spec/opcode_table.json, and the
assembler lines that name them (R99). A register index of a command is the 2-bit D or S field read as an
unsigned number (R92), so it is a `Fin 4`; an assembler line may write any index and any register file.
-/

namespace Sys2Proof

/-- A command (R95). Operands stand in the order of the assembler syntax: destination, then source (R99). -/
inductive Instr where
  /-- `nop` (R170). -/
  | nop
  /-- `decode tg<dst>, cb<src>` (R117). -/
  | decode (dst src : Fin 4)
  /-- `encode cb<dst>, tg<src>` (R127). -/
  | encode (dst src : Fin 4)
  /-- `retarget tg<dst>` (R153). -/
  | retarget (dst : Fin 4)
deriving DecidableEq, Repr

/-- The mnemonics of R99. -/
inductive Mnemonic where
  | nop | decode | encode | retarget
deriving DecidableEq, Repr

/-- A register name as written: `tg<n>` or `cb<n>`, with whatever number was written (R99). -/
inductive AsmReg where
  | tg (n : Nat)
  | cb (n : Nat)
deriving DecidableEq, Repr

/-- One line of assembler: a mnemonic and its operands as written (R99). -/
structure AsmLine where
  mnemonic : Mnemonic
  operands : List AsmReg
deriving DecidableEq, Repr

/-- The line a command is written as (R99). -/
def Instr.asmLine : Instr → AsmLine
  | .nop => ⟨.nop, []⟩
  | .decode dst src => ⟨.decode, [.tg dst, .cb src]⟩
  | .encode dst src => ⟨.encode, [.cb dst, .tg src]⟩
  | .retarget dst => ⟨.retarget, [.tg dst]⟩

end Sys2Proof
end

