-- ==== Sys2Proof/WellFormed.lean ====
section
/-!
DEFINITION. The checks of R99 on an assembler line: "an index outside 0 to 3, or a register of the wrong
file for the slot, is an assembly error". A command (`Instr`) is well formed when the line it is written as
is; its indices are `Fin 4`, so every command is (Sys2Proof/Laws/PerInstr.lean proves it per constructor).
-/

namespace Sys2Proof

/-- The index written is 0 to 3 (R92, R99). -/
def AsmReg.indexOk : AsmReg → Bool
  | .tg n => decide (n < 4)
  | .cb n => decide (n < 4)

/-- The line names as many registers as its mnemonic takes, each of the file its slot takes (R92, R99). -/
def AsmLine.filesOk (l : AsmLine) : Bool :=
  match l.mnemonic, l.operands with
  | .nop, [] => true
  | .decode, [.tg _, .cb _] => true
  | .encode, [.cb _, .tg _] => true
  | .retarget, [.tg _] => true
  | _, _ => false

/-- The checks on a line together (R99). -/
def AsmLine.wellFormed (l : AsmLine) : Bool :=
  l.filesOk && l.operands.all AsmReg.indexOk

/-- A command is well formed when the line it is written as is (R99). -/
def Instr.wellFormed (i : Instr) : Bool :=
  i.asmLine.wellFormed

end Sys2Proof
end

