-- ==== Sys2Proof/Decode.lean ====
section
/-!
DEFINITION. The command word: its fields (R90), the decoder (R91 to R97), the opcode table by mask and match
(R95) and the encoder (R90, R95). The decoder reads the fields; that it agrees with the table is a statement.
-/

namespace Sys2Proof

/-- OP = w[7:0] (R90, R91). -/
def opField (w : Word) : BitVec 8 := w.extractLsb' 0 8

/-- D = w[9:8], an unsigned index (R90, R92). -/
def dField (w : Word) : Fin 4 := (w.extractLsb' 8 2).toFin

/-- w[11:10], which must be 0 (R90, R93). -/
def lowReserved (w : Word) : BitVec 2 := w.extractLsb' 10 2

/-- S = w[13:12], an unsigned index (R90, R92). -/
def sField (w : Word) : Fin 4 := (w.extractLsb' 12 2).toFin

/-- w[31:14], which must be 0 (R90, R93). -/
def highReserved (w : Word) : BitVec 18 := w.extractLsb' 14 18

/-- Why a word is no command (R96). -/
inductive DecodeError where
  /-- OP is 0x04 to 0xFF (R91, R96). -/
  | reservedOpcode
  /-- OP is defined, but a bit that must be 0 is 1 (R93, R96). -/
  | mustBeZero
  /-- Fewer than four bytes were given: not a 32-bit word (R97). Raised for byte lists only. -/
  | truncated
deriving DecidableEq, Repr

/-- Both always-reserved fields are 0 (R93). -/
def reservedClear (w : Word) : Bool :=
  lowReserved w == 0 && highReserved w == 0

/-- The command a word is, or why it is none (R91, R92, R93, R96). Total: every 32-bit word is classified. -/
def decodeWord (w : Word) : Except DecodeError Instr :=
  if opField w = 0x00#8 then
    if reservedClear w && dField w == 0 && sField w == 0 then .ok .nop else .error .mustBeZero
  else if opField w = 0x01#8 then
    if reservedClear w then .ok (.decode (dField w) (sField w)) else .error .mustBeZero
  else if opField w = 0x02#8 then
    if reservedClear w then .ok (.encode (dField w) (sField w)) else .error .mustBeZero
  else if opField w = 0x03#8 then
    if reservedClear w && sField w == 0 then .ok (.retarget (dField w)) else .error .mustBeZero
  else .error .reservedOpcode

/-- The word on four byte lanes, the lowest address first: lanes are little-endian (R62). -/
def wordOfLanes (b0 b1 b2 b3 : Byte) : Word := b3 ++ b2 ++ b1 ++ b0

/-- The byte lanes of a word, the lowest address first (R62). -/
def lanesOfWord (w : Word) : List Byte :=
  [w.extractLsb' 0 8, w.extractLsb' 8 8, w.extractLsb' 16 8, w.extractLsb' 24 8]

/-- The command at the front of a list of bytes, and the bytes after it: a command is one word (R97). -/
def decodeBytes : List Byte → Except DecodeError (Instr × List Byte)
  | b0 :: b1 :: b2 :: b3 :: rest =>
    match decodeWord (wordOfLanes b0 b1 b2 b3) with
    | .ok i => .ok (i, rest)
    | .error e => .error e
  | _ => .error .truncated

/-- The command word of given fields, its other bits 0 (R90). -/
def commandWord (op : BitVec 8) (d s : Fin 4) : Word :=
  0#18 ++ BitVec.ofFin (w := 2) s ++ 0#2 ++ BitVec.ofFin (w := 2) d ++ op

/-- The word of a command: a field the command does not use is 0 (R90, R93, R95). -/
def encodeInstr : Instr → Word
  | .nop => commandWord 0x00#8 0 0
  | .decode dst src => commandWord 0x01#8 dst src
  | .encode dst src => commandWord 0x02#8 dst src
  | .retarget dst => commandWord 0x03#8 dst 0

/-- One row of the opcode table: a word w selects it when `w &&& mask = pattern` (R95). -/
structure OpcodeRow where
  mnemonic : Mnemonic
  pattern : Word
  mask : Word
deriving DecidableEq, Repr

/-- The complete command set, row for row (R95). -/
def opcodeTable : List OpcodeRow :=
  [⟨.nop, 0x00000000#32, 0xFFFFFFFF#32⟩,
   ⟨.decode, 0x00000001#32, 0xFFFFCCFF#32⟩,
   ⟨.encode, 0x00000002#32, 0xFFFFCCFF#32⟩,
   ⟨.retarget, 0x00000003#32, 0xFFFFFCFF#32⟩]

/-- The word selects the row (R95). -/
def OpcodeRow.selects (r : OpcodeRow) (w : Word) : Bool :=
  w &&& r.mask == r.pattern

/-- The mnemonic of a command's row (R95, R99). -/
def Instr.mnemonic : Instr → Mnemonic
  | .nop => .nop
  | .decode _ _ => .decode
  | .encode _ _ => .encode
  | .retarget _ => .retarget

/-- The command of a table word: `nbits` bits of `w`, bit 0 the least significant, every bit above them 0,
laid out on the byte lanes (R62) and given to the decoder. `none` where the word is illegal (R96) or is not
one 32-bit word (R97). -/
def decodeTableWord (nbits w : Nat) : Option Instr :=
  let v := w % 2 ^ nbits
  if v < 2 ^ 32 then
    match decodeBytes (lanesOfWord (BitVec.ofNat 32 v)) with
    | .ok (i, _) => some i
    | .error _ => none
  else none

end Sys2Proof
end

