-- ==== Sys2Proof/Config.lean ====
section
/-!
DEFINITION. The implementation parameters of R7. The fixed ones are numbers; the ones the spec marks OPEN
are constants with no body, so nothing can be proved of the value they take (log 3 to log 6).
-/

namespace Sys2Proof.Config

/-- `WINDOW`: bytes of register window (R7, R60). -/
def window : Nat := 0x2000

/-- `ID_VALUE`, the bytes "CBX1" (R7, R22). -/
def idValue : Word := 0x43425831#32

/-- Reset value of POW_LIMIT's magnitude, 2^224 - 1 (R7, R33). -/
def resetPowLimit : Magnitude := BitVec.ofNat 2048 (2 ^ 224 - 1)

/-- Reset value of TIMESPAN: 14 days in seconds (R7, R34). -/
def resetTimespan : Word := 1209600#32

/-- Reset value of EPOCH_LEN (R7, R35). -/
def resetEpochLen : Word := 2016#32

/-- `HEIGHT_INC_MODE`: how `height + 1` is formed in RETARGET's boundary test (R7, R143). -/
inductive HeightIncMode where
  /-- The exact integer sum. -/
  | exact
  /-- The sum modulo 2^32. -/
  | wrap32
deriving DecidableEq, Repr, Inhabited

/-- `NEG_QUOT_MODE`: the rounding of RETARGET's quotient when the product is negative (R7, R148). -/
inductive NegQuotMode where
  /-- Toward zero. -/
  | trunc
  /-- Toward minus infinity. -/
  | floor
deriving DecidableEq, Repr, Inhabited

/-- The OPEN parameter `HEIGHT_INC_MODE` (R143, D21). DESIGN CHOICE: a constant with no body, so a claim
holds for both values. Safe. Log 3. -/
opaque heightIncMode : HeightIncMode

/-- The OPEN parameter `NEG_QUOT_MODE` (R148, D22). DESIGN CHOICE: a constant with no body, so a claim
holds for both values. Safe. Log 4. -/
opaque negQuotMode : NegQuotMode

/-- The OPEN parameter `BASE`, counted in windows, so that it is a multiple of 0x2000 (R7, R60). Log 5. -/
opaque baseIndex : Nat

/-- `BASE`: the host byte address of offset 0 (R7, R60). DESIGN CHOICE: any multiple of 0x2000. Safe. Log 5. -/
def base : Nat := window * baseIndex

/-- The OPEN parameter `LAT_MAX`, less one, so that it is at least 1 (R7, R176). Log 6. -/
opaque latMaxLessOne : Nat

/-- `LAT_MAX`, in clock cycles. No rule depends on it (R176, R220), and nothing in the model reads it. Log 6. -/
def latMax : Nat := latMaxLessOne + 1

end Sys2Proof.Config
end

