-- ==== Sys2Proof/Machine/State.lean ====
section
/-!
DEFINITION. Everything the spec gives the machine (R20, R21, R36), as plain data, and the reset state (R40).
The fields `inputs` and `port` are the model's own: what the environment still presents, and what the port
last answered.
-/

namespace Sys2Proof.Machine

/-- The error codes of STATUS.ERR other than 0 (R180). -/
inductive CmdError where
  /-- 1, ERR_ILLEGAL: the word is no command (R96, R177). -/
  | illegal
  /-- 2, ERR_RANGE: Encode's final exponent exceeds 255 (R125). -/
  | range
  /-- 3, ERR_CONFIG: EPOCH_LEN = 0, or TIMESPAN = 0 with a retarget due (R152). -/
  | config
  /-- 4, ERR_EPOCH: STRICT_EPOCH, a retarget due, and the wrong start height (R151). -/
  | epoch
deriving DecidableEq, Repr

/-- The bits CTRL holds; its bits 31:2 are RAZ/WI (R23). -/
structure Ctrl where
  irqEn : Bool
  strictEpoch : Bool
deriving DecidableEq, Repr

/-- The bits STATUS holds; BUSY is the engine state, and the other bits are RAZ/WI (R24, R36).
`err = none` is code 0 (R180). -/
structure Status where
  done : Bool
  wdrop : Bool
  err : Option CmdError
deriving DecidableEq, Repr

/-- The bits FLAGS holds, bits 0 to 9 in this order; bits 31:10 are always 0 (R32). -/
structure Flags where
  zero : Bool
  neg : Bool
  signIn : Bool
  ovf : Bool
  lossy : Bool
  due : Bool
  spanLo : Bool
  spanHi : Bool
  ceil : Bool
  epochMismatch : Bool
deriving DecidableEq, Repr

/-- Every FLAGS bit 0 (R32, R170). -/
def Flags.clear : Flags :=
  { zero := false, neg := false, signIn := false, ovf := false, lossy := false,
    due := false, spanLo := false, spanHi := false, ceil := false, epochMismatch := false }

/-- A target-format register: a sign bit and a 2048-bit magnitude (R26). -/
structure Target where
  sign : Bool
  mag : Magnitude
deriving DecidableEq, Repr

/-- A header operand group (R29, R30). -/
structure Header where
  height : Word
  bits : Word
  timeLo : Word
  timeHi : Word
deriving DecidableEq, Repr

/-- The engine state: no queue, at most one command in flight (R36). -/
inductive Engine where
  | idle
  /-- The accepted command word, not yet committed. -/
  | busy (w : Word)
deriving DecidableEq, Repr

/-- The width of a host transaction; only `bits32` is served (R61). -/
inductive AccessWidth where
  | bits8 | bits16 | bits32 | bits64 | burst
deriving DecidableEq, Repr

/-- A host transaction at a byte offset of the window (R15, R61). The data of a write that is not served is
never looked at, so 32 bits of it stand for all. DESIGN CHOICE, safe; log 12. -/
inductive Access where
  | read (offset : Nat) (width : AccessWidth)
  | write (offset : Nat) (width : AccessWidth) (data : Word)
deriving DecidableEq, Repr

/-- What the port answers a transaction with (R61, R184). -/
inductive BusResponse where
  | okRead (data : Word)
  | okWrite
  | busError
deriving DecidableEq, Repr

/-- What one clock cycle presents to the block: the level of `rst` (R210), whether the engine, if Busy,
reaches its commit in this cycle (R176), and the host's transaction, if any. One total order of commits and
transactions (R69) is one list of these. DESIGN CHOICE, safe; log 1. -/
structure Cycle where
  rst : Bool
  commit : Bool
  access : Option Access
deriving DecidableEq, Repr

/-- The state of CBX (R20, R21, R36), and the model's own `inputs` and `port`. -/
structure State where
  /-- CTRL (R23). -/
  ctrl : Ctrl
  /-- STATUS but for BUSY (R24). -/
  status : Status
  /-- CMD's read-back: the last accepted command word (R25). -/
  cmd : Word
  /-- FLAGS (R32). -/
  flags : Flags
  /-- TIMESPAN, seconds, unsigned (R34). -/
  timespan : Word
  /-- EPOCH_LEN, unsigned (R35). -/
  epochLen : Word
  /-- CB0 to CB3 (R28). -/
  cb : Vector Word 4
  /-- HDR_S, the epoch start header (R29). -/
  hdrS : Header
  /-- HDR_E, the epoch end header (R30). -/
  hdrE : Header
  /-- TG0 to TG3 (R27). -/
  tg : Vector Target 4
  /-- POW_LIMIT (R33). -/
  powLimit : Target
  /-- The engine state (R36); STATUS.BUSY is 1 exactly when it is `busy`. -/
  engine : Engine
  /-- The MODEL's own: the clock cycles the environment still presents, the next one first. Log 1. -/
  inputs : List Cycle
  /-- The MODEL's own: what the port answered in the last cycle. Log 2. -/
  port : Option BusResponse
deriving DecidableEq, Repr

/-- Faults that stop the machine. There is none: a failing command commits an error code and the block goes
on (R173, R180), a bus error is an answer of the port with no effect (R184), and CBX has no trap (R188).
No constructor, so nobody raises one; safe. -/
inductive Fault : Type
deriving DecidableEq, Repr

/-- Refusals of the model. -/
inductive Refusal where
  /-- Raised by `exec` alone, for a command that has no meaning yet; every command has one, so nothing
  raises it. Safe. -/
  | notModelled (mnemonic : String)
deriving DecidableEq, Repr

/-- A target register that holds +0 (R27). -/
def Target.zero : Target := { sign := false, mag := 0#2048 }

/-- A header group of zeros (R29, R30). -/
def Header.zero : Header := { height := 0#32, bits := 0#32, timeLo := 0#32, timeHi := 0#32 }

/-- The machine right after reset: every value is that of R40. The environment presents nothing yet and the
port has answered nothing. -/
def State.reset : State :=
  { ctrl := { irqEn := false, strictEpoch := false }
    status := { done := false, wdrop := false, err := none }
    cmd := 0#32
    flags := Flags.clear
    timespan := Config.resetTimespan
    epochLen := Config.resetEpochLen
    cb := Vector.replicate 4 0#32
    hdrS := Header.zero
    hdrE := Header.zero
    tg := Vector.replicate 4 Target.zero
    powLimit := { sign := false, mag := Config.resetPowLimit }
    engine := .idle
    inputs := []
    port := none }

end Sys2Proof.Machine
end

