-- ==== Sys2Proof/Machine/Ops.lean ====
section
/-!
DEFINITION. The named operations on the registers: target-format values (R14, R26), the window's map (R63),
reads and writes of it (R64 to R66), the port (R61), the issue (R171), the commit of a result (R173), the
commit of an error code, which is the only "exception" CBX takes (R16, R188), and reset (R210).
-/

namespace Sys2Proof.Machine

/-! ## Target-format registers -/

/-- `value(X)` of a target-format register (R14, R26). -/
def targetValue (x : Target) : Int :=
  if x.sign then -(x.mag.toNat : Int) else (x.mag.toNat : Int)

/-- What `put(X, v)` writes: the sign of v and its magnitude, zero with SIGN 0 (R14). -/
def putTarget (v : Int) : Target :=
  { sign := decide (v < 0), mag := BitVec.ofNat 2048 v.natAbs }

/-- `MAG[k]`, bits 32k+31 : 32k of MAG (R26, R62). -/
def magWord (m : Magnitude) (k : Fin 64) : Word :=
  m.extractLsb' (32 * k.val) 32

/-- MAG with its word `MAG[k]` replaced (R26, R62). -/
def setMagWord (m : Magnitude) (k : Fin 64) (v : Word) : Magnitude :=
  (m &&& ~~~(BitVec.setWidth 2048 (BitVec.allOnes 32) <<< (32 * k.val)))
    ||| (BitVec.setWidth 2048 v <<< (32 * k.val))

/-! ## The register files -/

/-- TG[i] (R14). -/
def readTg (i : Fin 4) (s : State) : Target := s.tg[i]

/-- CB[i] (R14). -/
def readCb (i : Fin 4) (s : State) : Word := s.cb[i]

/-- TG[i] <- x (R14). -/
def writeTg (i : Fin 4) (x : Target) (s : State) : State :=
  { s with tg := s.tg.set i.val x i.isLt }

/-- CB[i] <- w (R14). -/
def writeCb (i : Fin 4) (w : Word) (s : State) : State :=
  { s with cb := s.cb.set i.val w i.isLt }

/-! ## Register words the host sees -/

/-- The code of STATUS.ERR (R180). -/
def errCode : Option CmdError → BitVec 4
  | none => 0#4
  | some .illegal => 1#4
  | some .range => 2#4
  | some .config => 3#4
  | some .epoch => 4#4

/-- STATUS.BUSY: 1 exactly when the engine is Busy (R24, R36). -/
def busy (s : State) : Bool :=
  match s.engine with
  | .idle => false
  | .busy _ => true

/-- CTRL as read: bits 31:2 are 0 (R23). -/
def ctrlWord (c : Ctrl) : Word :=
  0#30 ++ BitVec.ofBool c.strictEpoch ++ BitVec.ofBool c.irqEn

/-- CTRL as written: bits 31:2 are discarded (R23). -/
def ctrlOfWord (v : Word) : Ctrl :=
  { irqEn := v.getLsbD 0, strictEpoch := v.getLsbD 1 }

/-- STATUS as read: ERR in 11:8, WDROP in 2, DONE in 1, BUSY in 0, the rest 0 (R24). -/
def statusWord (s : State) : Word :=
  0#20 ++ errCode s.status.err ++ 0#5 ++ BitVec.ofBool s.status.wdrop ++ BitVec.ofBool s.status.done
    ++ BitVec.ofBool (busy s)

/-- FLAGS as read: bits 31:10 are 0 (R32). -/
def flagsWord (f : Flags) : Word :=
  0#22 ++ BitVec.ofBool f.epochMismatch ++ BitVec.ofBool f.ceil ++ BitVec.ofBool f.spanHi
    ++ BitVec.ofBool f.spanLo ++ BitVec.ofBool f.due ++ BitVec.ofBool f.lossy ++ BitVec.ofBool f.ovf
    ++ BitVec.ofBool f.signIn ++ BitVec.ofBool f.neg ++ BitVec.ofBool f.zero

/-- The interrupt output, a level: `irq = CTRL.IRQ_EN and STATUS.DONE` (R186). -/
def irq (s : State) : Bool :=
  s.ctrl.irqEn && s.status.done

/-! ## The window's map -/

/-- Which header group (R29, R30). -/
inductive HeaderSide where
  | start | last
deriving DecidableEq, Repr

/-- Which register of a header group (R29). -/
inductive HeaderField where
  | height | bits | timeLo | timeHi
deriving DecidableEq, Repr

/-- Which target-format register (R27, R33). -/
inductive TargetName where
  | tg (i : Fin 4)
  | powLimit
deriving DecidableEq, Repr

/-- What stands at an aligned offset of the window (R63). -/
inductive WindowReg where
  | id | ctrl | status | cmd | flags | timespan | epochLen
  | cb (i : Fin 4)
  | hdr (side : HeaderSide) (field : HeaderField)
  | sign (x : TargetName)
  | mag (x : TargetName) (k : Fin 64)
  | reserved
deriving DecidableEq, Repr

/-- The header register of the n-th word of a group (R29, R63). -/
def headerField (n : Nat) : HeaderField :=
  if n = 0 then .height else if n = 1 then .bits else if n = 2 then .timeLo else .timeHi

/-- The target-format register of the n-th block of 0x200 bytes from 0x1000 (R27, R33, R63). -/
def targetName (n : Nat) : TargetName :=
  if n < 4 then .tg (Fin.ofNat 4 n) else .powLimit

/-- What stands at offset `r` of the target-format register `x` (R26). -/
def targetReg (x : TargetName) (r : Nat) : WindowReg :=
  if r = 0 then .sign x
  else if 0x100 ≤ r then .mag x (Fin.ofNat 64 ((r - 0x100) / 4))
  else .reserved

/-- The window's map, at an aligned offset: every offset not listed is reserved (R63, R64). -/
def windowReg (off : Nat) : WindowReg :=
  if off = 0x0000 then .id
  else if off = 0x0004 then .ctrl
  else if off = 0x0008 then .status
  else if off = 0x000C then .cmd
  else if off = 0x0010 then .flags
  else if off = 0x0014 then .timespan
  else if off = 0x0018 then .epochLen
  else if 0x0020 ≤ off ∧ off < 0x0030 then .cb (Fin.ofNat 4 ((off - 0x0020) / 4))
  else if 0x0040 ≤ off ∧ off < 0x0050 then .hdr .start (headerField ((off - 0x0040) / 4))
  else if 0x0050 ≤ off ∧ off < 0x0060 then .hdr .last (headerField ((off - 0x0050) / 4))
  else if 0x1000 ≤ off ∧ off < 0x1A00 then
    targetReg (targetName ((off - 0x1000) / 0x200)) ((off - 0x1000) % 0x200)
  else .reserved

/-- The base of a target-format register's block (R27, R33). -/
def targetBase : TargetName → Nat
  | .tg i => 0x1000 + 0x200 * i.val
  | .powLimit => 0x1800

/-- The offset of a header register (R29, R30). -/
def headerOffset (side : HeaderSide) (field : HeaderField) : Nat :=
  (match side with
    | .start => 0x0040
    | .last => 0x0050)
  + (match field with
    | .height => 0x0
    | .bits => 0x4
    | .timeLo => 0x8
    | .timeHi => 0xC)

/-- The offset of a register word, as the register summary gives it; reserved words have no one offset,
and 0x001C, a reserved one, stands for them (R21, R26, R63). -/
def regOffset : WindowReg → Nat
  | .id => 0x0000
  | .ctrl => 0x0004
  | .status => 0x0008
  | .cmd => 0x000C
  | .flags => 0x0010
  | .timespan => 0x0014
  | .epochLen => 0x0018
  | .cb i => 0x0020 + 4 * i.val
  | .hdr side field => headerOffset side field
  | .sign x => targetBase x
  | .mag x k => targetBase x + 0x100 + 4 * k.val
  | .reserved => 0x001C

/-! ## Reads and writes of a register word -/

/-- The target-format register of a name (R27, R33). -/
def readTarget (x : TargetName) (s : State) : Target :=
  match x with
  | .tg i => readTg i s
  | .powLimit => s.powLimit

/-- Replace the target-format register of a name (R27, R33). -/
def writeTarget (x : TargetName) (t : Target) (s : State) : State :=
  match x with
  | .tg i => writeTg i t s
  | .powLimit => { s with powLimit := t }

/-- The header group of a side (R29, R30). -/
def readHeader (side : HeaderSide) (s : State) : Header :=
  match side with
  | .start => s.hdrS
  | .last => s.hdrE

/-- One register of a header group (R29). -/
def headerWord (h : Header) : HeaderField → Word
  | .height => h.height
  | .bits => h.bits
  | .timeLo => h.timeLo
  | .timeHi => h.timeHi

/-- A header group with one register replaced (R29). -/
def setHeaderWord (h : Header) (field : HeaderField) (v : Word) : Header :=
  match field with
  | .height => { h with height := v }
  | .bits => { h with bits := v }
  | .timeLo => { h with timeLo := v }
  | .timeHi => { h with timeHi := v }

/-- Replace one register of a header group (R29, R30). -/
def writeHeader (side : HeaderSide) (field : HeaderField) (v : Word) (s : State) : State :=
  match side with
  | .start => { s with hdrS := setHeaderWord s.hdrS field v }
  | .last => { s with hdrE := setHeaderWord s.hdrE field v }

/-- What a read of a register word returns (R22 to R36, R64, R66). -/
def readReg (r : WindowReg) (s : State) : Word :=
  match r with
  | .id => Config.idValue
  | .ctrl => ctrlWord s.ctrl
  | .status => statusWord s
  | .cmd => s.cmd
  | .flags => flagsWord s.flags
  | .timespan => s.timespan
  | .epochLen => s.epochLen
  | .cb i => readCb i s
  | .hdr side field => headerWord (readHeader side s) field
  | .sign x => BitVec.setWidth 32 (BitVec.ofBool (readTarget x s).sign)
  | .mag x k => magWord (readTarget x s).mag k
  | .reserved => 0#32

/-- What a read at a served offset returns (R63, R64). -/
def readOffset (off : Nat) (s : State) : Word :=
  readReg (windowReg off) s

/-- A write of a register word other than STATUS and CMD while Idle: read/write registers take the value
with reserved bits discarded; ID, FLAGS and reserved words do not change (R64 to R66). -/
def writeReg (r : WindowReg) (v : Word) (s : State) : State :=
  match r with
  | .ctrl => { s with ctrl := ctrlOfWord v }
  | .timespan => { s with timespan := v }
  | .epochLen => { s with epochLen := v }
  | .cb i => writeCb i v s
  | .hdr side field => writeHeader side field v s
  | .sign x => writeTarget x { readTarget x s with sign := v.getLsbD 0 } s
  | .mag x k => writeTarget x { readTarget x s with mag := setMagWord (readTarget x s).mag k v } s
  | .id | .status | .cmd | .flags | .reserved => s

/-- A write to STATUS: bit 1 written 1 clears DONE, bit 2 written 1 clears WDROP, nothing else (R24). -/
def clearStatus (v : Word) (s : State) : State :=
  { s with status :=
      { s.status with done := s.status.done && !v.getLsbD 1, wdrop := s.status.wdrop && !v.getLsbD 2 } }

/-- A write dropped because the engine is Busy: it sets WDROP and changes no register (R174). -/
def dropWrite (s : State) : State :=
  { s with status := { s.status with wdrop := true } }

/-- Issue: the word is accepted whatever it is (R171). -/
def issue (w : Word) (s : State) : State :=
  { s with cmd := w, engine := .busy w, status := { s.status with done := false, err := none } }

/-- A write of a register word: STATUS always acts, anything else is dropped while Busy, and a write to CMD
while Idle is an issue (R65, R171, R174). -/
def hostWriteReg (r : WindowReg) (v : Word) (s : State) : State :=
  match r with
  | .status => clearStatus v s
  | .cmd => if busy s then dropWrite s else issue v s
  | r => if busy s then dropWrite s else writeReg r v s

/-- A write at a served offset (R63, R65). -/
def hostWrite (off : Nat) (v : Word) (s : State) : State :=
  hostWriteReg (windowReg off) v s

/-! ## The port -/

/-- The byte offset a transaction names (R15). -/
def accessOffset : Access → Nat
  | .read off _ => off
  | .write off _ _ => off

/-- The width of a transaction (R61). -/
def accessWidth : Access → AccessWidth
  | .read _ width => width
  | .write _ width _ => width

/-- Only aligned 32-bit accesses inside the window are served (R61). -/
def served (a : Access) : Bool :=
  accessWidth a == .bits32 && accessOffset a % 4 == 0 && decide (accessOffset a < Config.window)

/-- A transaction's effect on the registers: none for a read (R65) and none for one that is not served
(R61, R184). -/
def accessEffect (a : Access) (s : State) : State :=
  match a with
  | .read _ _ => s
  | .write off _ v => if served a then hostWrite off v s else s

/-- What the port answers a transaction in a given state (R61, R64). -/
def accessResponse (a : Access) (s : State) : BusResponse :=
  if served a then
    match a with
    | .read off _ => .okRead (readOffset off s)
    | .write _ _ _ => .okWrite
  else .busError

/-- The port serves a transaction: one atomic step (R67). -/
def serve (a : Access) (s : State) : State :=
  { accessEffect a s with port := some (accessResponse a s) }

/-- The port serves what a cycle presents: at most one transaction (R69). -/
def serveCycle (a : Option Access) (s : State) : State :=
  match a with
  | none => s
  | some a => serve a s

/-! ## Commit -/

/-- Where a successful command writes (R173). -/
inductive Dest where
  /-- NOP: no register. -/
  | nothing
  /-- TG[i] via `put`. -/
  | tg (i : Fin 4) (v : Int)
  /-- CB[i]. -/
  | cb (i : Fin 4) (w : Word)
deriving DecidableEq, Repr

/-- The outcome of a command: a result, or an error code (R172). -/
inductive CommandOutcome where
  | success (dest : Dest) (flags : Flags)
  | error (code : CmdError)
deriving DecidableEq, Repr

/-- The destination write of a commit (R173). -/
def writeDest (d : Dest) (s : State) : State :=
  match d with
  | .nothing => s
  | .tg i v => writeTg i (putTarget v) s
  | .cb i w => writeCb i w s

/-- The end of every commit: BUSY 0, DONE 1, ERR the code given, WDROP unchanged, engine Idle (R173). -/
def finish (err : Option CmdError) (s : State) : State :=
  { s with engine := .idle, status := { s.status with done := true, err := err } }

/-- Commit of a success: the destination, FLAGS and ERR = 0 in one step (R68, R173). -/
def commitSuccess (d : Dest) (f : Flags) (s : State) : State :=
  finish none { writeDest d s with flags := f }

/-- `raise <Error>`, the one way a command fails: ERR takes the code and no register but STATUS changes
(R16, R173, R185). CBX has no other exception: no saved state, no vector, no return (R188, R189). -/
def raiseError (code : CmdError) (s : State) : State :=
  finish (some code) s

/-- The engine's only step, given the outcome (R173). -/
def commit (o : CommandOutcome) (s : State) : State :=
  match o with
  | .success d f => commitSuccess d f s
  | .error code => raiseError code s

/-! ## Reset -/

/-- What the port answers while `rst` is asserted: a read gets 0 with OK (R211), a write OK with no effect,
and a transaction that is not served a bus error (R61). DEDUCED for the last two; log 7. -/
def resetResponse (a : Access) : BusResponse :=
  if served a then
    match a with
    | .read _ _ => .okRead 0#32
    | .write _ _ _ => .okWrite
  else .busError

/-- A cycle with `rst` asserted: every register at its reset value, the engine Idle, the command in flight
abandoned, the transaction without effect (R210, R211). -/
def resetCycle (a : Option Access) (s : State) : State :=
  { State.reset with inputs := s.inputs, port := a.map resetResponse }

/-! ## The environment's cycles -/

/-- What a cycle is when the environment presents nothing more: no reset, no transaction, and the engine, if
Busy, commits, which is the weak fairness of R176. Log 1. -/
def quietCycle : Cycle :=
  { rst := false, commit := true, access := none }

/-- The next cycle's inputs. Log 1. -/
def nextCycle (s : State) : Cycle :=
  s.inputs.headD quietCycle

/-- The state at the start of the next cycle: its inputs taken, the port's last answer gone. Log 1, log 2. -/
def takeCycle (s : State) : State :=
  { s with inputs := s.inputs.tail, port := none }

/-- The word in flight, for the next step to commit: what an issue of it leaves (R171), with a cycle in front
in which the engine commits, unless nothing is presented at all. Log 9. -/
def loadCommand (w : Word) (s : State) : State :=
  let t := issue w s
  { t with inputs := if t.inputs.isEmpty then [] else quietCycle :: t.inputs }

end Sys2Proof.Machine
end

