-- ==== Sys2Proof/Machine/CompactBits.lean ====
section
/-!
DEFINITION. The CompactBits codec as pure functions: the fields of a compact word (R110), `Decode` (R112) and
`Encode` (R120). Every value is a mathematical integer and every operation on it is exact (R10); shifts act
on magnitudes only (R11).
-/

namespace Sys2Proof.Machine

/-! ## Lengths and bit fields -/

/-- `bitlen(a)`: the least k with a < 2^k (R12). -/
def bitlen (a : Nat) : Nat :=
  if a = 0 then 0 else Nat.log2 a + 1

/-- `bytelen(a) = ceil(bitlen(a) / 8)` (R12). -/
def bytelen (a : Nat) : Nat :=
  (bitlen a + 7) / 8

/-- The mantissa, `c[22:0]` (R110). -/
def compactMantissa (c : Word) : Nat :=
  (c.extractLsb' 0 23).toNat

/-- The sign flag, `c[23]` (R110). -/
def compactSign (c : Word) : Bool :=
  c.getLsbD 23

/-- The exponent, `c[31:24]`, a byte count (R110). -/
def compactExponent (c : Word) : Nat :=
  (c.extractLsb' 24 8).toNat

/-! ## Decode -/

/-- The magnitude of mantissa m at exponent e (R112). -/
def decodeMagnitude (e m : Nat) : Nat :=
  if e ≤ 3 then m >>> (8 * (3 - e)) else m <<< (8 * (e - 3))

/-- `Decode(c)` (R112): total (R113). -/
def compactDecode (c : Word) : Int :=
  let a := decodeMagnitude (compactExponent c) (compactMantissa c)
  if compactSign c then -(a : Int) else (a : Int)

/-! ## Encode -/

/-- What Encode gives: RANGE, or a word and whether the overflow correction was applied (R120). -/
inductive EncodeOutcome where
  | range
  | word (w : Word) (ovf : Bool)
deriving DecidableEq, Repr

/-- Steps 3 and 4: the mantissa before the correction, of a magnitude of e bytes (R120). -/
def rawMantissa (a e : Nat) : Nat :=
  if e ≤ 3 then a <<< (8 * (3 - e)) else a >>> (8 * (e - 3))

/-- Step 7: exponent and mantissa packed, with the sign flag ORed in for a negative value (R120). -/
def packCompact (neg : Bool) (e m : Nat) : Word :=
  let w := BitVec.ofNat 32 ((e <<< 24) ||| m)
  if neg then w ||| 0x00800000#32 else w

/-- `Encode(v)` (R120). -/
def compactEncode (v : Int) : EncodeOutcome :=
  if v = 0 then .word 0#32 false
  else
    let a := v.natAbs
    let e := bytelen a
    let m := rawMantissa a e
    let ovf := m.testBit 23
    let m' := if ovf then m >>> 8 else m
    let e' := if ovf then e + 1 else e
    if 255 < e' then .range else .word (packCompact (decide (v < 0)) e' m') ovf

end Sys2Proof.Machine
end

