-- ==== Sys2Proof/Machine/Operands.lean ====
section
/-!
DEFINITION. Every operand a command takes (R38, R92): DECODE's compact word, ENCODE's target value, and
RETARGET's implicit header and configuration inputs (R140, R141) with the timestamps of R31.
There are no immediates and no addressing modes (R92).
-/

namespace Sys2Proof.Machine

/-- DECODE's source, CB[S] (R92, R117). -/
def decodeSource (src : Fin 4) (s : State) : Word :=
  readCb src s

/-- ENCODE's source, value(TG[S]) (R92, R127). -/
def encodeSource (src : Fin 4) (s : State) : Int :=
  targetValue (readTg src s)

/-- A header's timestamp: `sext_64` of TIME_HI, TIME_LO, in whole seconds (R31). -/
def headerTime (h : Header) : Int :=
  (h.timeHi ++ h.timeLo : BitVec 64).toInt

/-- The inputs of NextTarget (R140, R141). DEDUCED: R38's last words on this are not followed; log 8. -/
structure RetargetInputs where
  /-- HDR_S.HEIGHT. -/
  hS : Nat
  /-- TIME of HDR_S. -/
  tS : Int
  /-- HDR_E.HEIGHT. -/
  hE : Nat
  /-- HDR_E.BITS. -/
  bE : Word
  /-- TIME of HDR_E. -/
  tE : Int
  /-- TIMESPAN. -/
  T : Nat
  /-- EPOCH_LEN. -/
  L : Nat
  /-- value(POW_LIMIT). -/
  PL : Int
  /-- CTRL.STRICT_EPOCH. -/
  strict : Bool
deriving DecidableEq, Repr

/-- RETARGET's inputs, read from the registers; HDR_S.BITS is none of them (R38, R140, R141). -/
def retargetInputs (s : State) : RetargetInputs :=
  { hS := s.hdrS.height.toNat
    tS := headerTime s.hdrS
    hE := s.hdrE.height.toNat
    bE := s.hdrE.bits
    tE := headerTime s.hdrE
    T := s.timespan.toNat
    L := s.epochLen.toNat
    PL := targetValue s.powLimit
    strict := s.ctrl.strictEpoch }

end Sys2Proof.Machine
end

