-- ==== Sys2Proof/Machine/NextTarget.lean ====
section
/-!
DEFINITION. `NextTarget` (R142) step by step, with the two OPEN parameters as arguments (R143, R148). Every
value is an exact integer (R10).
-/

namespace Sys2Proof.Machine

open Sys2Proof.Config (HeightIncMode NegQuotMode)

/-- `hp1`: height + 1, exact, or modulo 2^32 (R143). The two readings differ at the one height where the sum
reaches 2^32, so the parameter is looked at there alone; `heightPlusOne_eq` in Laws/NextTarget.lean proves
that this is R142's line. -/
def heightPlusOne (mode : HeightIncMode) (hE : Nat) : Nat :=
  if hE + 1 < 2 ^ 32 then hE + 1
  else
    match mode with
    | .exact => hE + 1
    | .wrap32 => (hE + 1) % 2 ^ 32

/-- Step 1's test: a retarget is due (R143, R154). -/
def retargetDue (hm : HeightIncMode) (x : RetargetInputs) : Bool :=
  heightPlusOne hm x.hE % x.L == 0

/-- The expected start height, `hp1 - L`, an exact integer (R151). -/
def expectedStart (hm : HeightIncMode) (x : RetargetInputs) : Int :=
  (heightPlusOne hm x.hE : Int) - (x.L : Int)

/-- C2: the start height is not the expected one (R151). -/
def startMismatch (hm : HeightIncMode) (x : RetargetInputs) : Bool :=
  decide ((x.hS : Int) ≠ expectedStart hm x)

/-- Step 2: the raw timespan, exact (R145). -/
def rawSpan (x : RetargetInputs) : Int :=
  x.tE - x.tS

/-- Step 3's lower bound, floor(T / 4) (R146). -/
def spanMin (x : RetargetInputs) : Int :=
  ((x.T / 4 : Nat) : Int)

/-- Step 3's upper bound, 4 * T (R146). -/
def spanMax (x : RetargetInputs) : Int :=
  ((4 * x.T : Nat) : Int)

/-- Step 3: the clamped timespan (R142, R146). -/
def clampedSpan (x : RetargetInputs) : Int :=
  if rawSpan x < spanMin x then spanMin x
  else if rawSpan x > spanMax x then spanMax x
  else rawSpan x

/-- `quot_trunc(p, q)`: the quotient rounded toward zero (R13). -/
def quotTrunc (p : Int) (q : Nat) : Int :=
  p.sign * ((p.natAbs / q : Nat) : Int)

/-- `quot_floor(p, q)`: the quotient rounded down (R13). -/
def quotFloor (p : Int) (q : Nat) : Int :=
  p.fdiv (q : Int)

/-- Step 5's quotient of a product (R148). -/
def retargetQuotient (nm : NegQuotMode) (p : Int) (t : Nat) : Int :=
  if p < 0 then
    match nm with
    | .trunc => quotTrunc p t
    | .floor => quotFloor p t
  else quotTrunc p t

/-- Steps 4 and 5: the last target times the clamped span, divided by T (R147, R148). -/
def quotient (nm : NegQuotMode) (x : RetargetInputs) : Int :=
  retargetQuotient nm (compactDecode x.bE * clampedSpan x) x.T

/-- Step 6: the ceiling, a signed comparison (R149). -/
def ceilTarget (q limit : Int) : Int :=
  if q > limit then limit else q

/-- What NextTarget gives: an integer, or CONFIG or EPOCH (R142). -/
inductive NextTargetOutcome where
  | config
  | epoch
  | target (r : Int)
deriving DecidableEq, Repr

/-- `NextTarget` (R142), its checks in the order of R155. -/
def nextTarget (hm : HeightIncMode) (nm : NegQuotMode) (x : RetargetInputs) : NextTargetOutcome :=
  if x.L = 0 then .config
  else if !retargetDue hm x then .target (compactDecode x.bE)
  else if x.T = 0 then .config
  else if startMismatch hm x && x.strict then .epoch
  else .target (ceilTarget (quotient nm x) x.PL)

end Sys2Proof.Machine
end

