-- ==== Sys2Proof/Machine/Flags.lean ====
section
/-!
DEFINITION. The FLAGS value of each command (R32): a bit the command defines takes the value its rule gives,
every other bit is 0.
-/

namespace Sys2Proof.Machine

open Sys2Proof.Config (HeightIncMode NegQuotMode)

/-- NOP's flags: all 0 (R170). -/
def nopFlags : Flags := Flags.clear

/-- DECODE's flags, of the source word and v = Decode(c) (R118). -/
def decodeFlags (c : Word) : Flags :=
  { Flags.clear with
    zero := decide (compactDecode c = 0)
    neg := decide (compactDecode c < 0)
    signIn := compactSign c }

/-- ENCODE's flags, of the source value, the result word and step 5's `ovf` (R128). -/
def encodeFlags (v : Int) (w : Word) (ovf : Bool) : Flags :=
  { Flags.clear with
    zero := decide (w = 0#32)
    neg := w.getLsbD 23
    ovf := ovf
    lossy := decide (compactDecode w ≠ v) }

/-- RETARGET's flags, of the inputs and the result (R154). -/
def retargetFlags (hm : HeightIncMode) (nm : NegQuotMode) (x : RetargetInputs) (r : Int) : Flags :=
  { Flags.clear with
    zero := decide (r = 0)
    neg := decide (r < 0)
    due := retargetDue hm x
    spanLo := retargetDue hm x && decide (rawSpan x < spanMin x)
    spanHi := retargetDue hm x && decide (rawSpan x > spanMax x)
    ceil := retargetDue hm x && decide (quotient nm x > x.PL)
    epochMismatch := retargetDue hm x && startMismatch hm x }

end Sys2Proof.Machine
end

