-- ==== Sys2Proof/Machine/Codec.lean ====
section
/-!
DEFINITION. The codec commands: DECODE (R117) and ENCODE (R127). Each is the commit of an outcome computed
from the registers, which hold at the commit what they held at the issue (R172, R174).
-/

namespace Sys2Proof.Machine

/-- DECODE's outcome: never an error (R113, R117). -/
def decodeOutcome (dst src : Fin 4) (s : State) : CommandOutcome :=
  .success (.tg dst (compactDecode (decodeSource src s))) (decodeFlags (decodeSource src s))

/-- DECODE: decode a compact register into a target register (R117). -/
def execDecode (dst src : Fin 4) (s : State) : Host.Outcome State Fault Refusal :=
  .next (commit (decodeOutcome dst src s) s)

/-- ENCODE's outcome: the word, or ERR_RANGE (R127). -/
def encodeOutcome (dst src : Fin 4) (s : State) : CommandOutcome :=
  match compactEncode (encodeSource src s) with
  | .range => .error .range
  | .word w ovf => .success (.cb dst w) (encodeFlags (encodeSource src s) w ovf)

/-- ENCODE: encode a target register into a compact register (R127). -/
def execEncode (dst src : Fin 4) (s : State) : Host.Outcome State Fault Refusal :=
  .next (commit (encodeOutcome dst src s) s)

end Sys2Proof.Machine
end

