-- ==== Sys2Proof/Machine/Control.lean ====
section
/-!
DEFINITION. NOP (R170) and the commit of a word that is no command (R177).
-/

namespace Sys2Proof.Machine

/-- NOP's outcome: no register, FLAGS 0 (R170). -/
def nopOutcome : CommandOutcome :=
  .success .nothing nopFlags

/-- NOP: do nothing but complete (R170). -/
def execNop (s : State) : Host.Outcome State Fault Refusal :=
  .next (commit nopOutcome s)

/-- The commit of an illegal word: `error(ERR_ILLEGAL)`, decided from the word alone (R177, R183). -/
def commitIllegal (s : State) : State :=
  commit (.error .illegal) s

end Sys2Proof.Machine
end

