-- ==== Sys2Proof/Machine/Retarget.lean ====
section
/-!
DEFINITION. RETARGET (R153): the next target into a target register, under the two OPEN parameters of Config.
-/

namespace Sys2Proof.Machine

open Sys2Proof.Config (HeightIncMode NegQuotMode)

/-- RETARGET's outcome: the target and its flags, ERR_CONFIG or ERR_EPOCH (R153), for given readings of the
OPEN parameters (R143, R148). -/
def retargetOutcome (hm : HeightIncMode) (nm : NegQuotMode) (dst : Fin 4) (s : State) : CommandOutcome :=
  match nextTarget hm nm (retargetInputs s) with
  | .config => .error .config
  | .epoch => .error .epoch
  | .target r => .success (.tg dst r) (retargetFlags hm nm (retargetInputs s) r)

/-- RETARGET: compute the next target into a target register (R153). -/
def execRetarget (dst : Fin 4) (s : State) : Host.Outcome State Fault Refusal :=
  .next (commit (retargetOutcome Config.heightIncMode Config.negQuotMode dst s) s)

end Sys2Proof.Machine
end

