-- ==== Sys2Proof/Machine/Dispatch.lean ====
section
/-!
DEFINITION. The meaning of each command: the commit of that command in a state (R173).
-/

namespace Sys2Proof.Machine

def exec (i : Instr) (s : State) : Host.Outcome State Fault Refusal :=
  match i with
  | .nop => Sys2Proof.Machine.execNop s
  | .decode dst src => Sys2Proof.Machine.execDecode dst src s
  | .encode dst src => Sys2Proof.Machine.execEncode dst src s
  | .retarget dst => Sys2Proof.Machine.execRetarget dst s

end Sys2Proof.Machine
end

