-- ==== Sys2Proof/Machine/Cycle.lean ====
section
/-!
DEFINITION. One clock cycle of the block: reset, then the engine's commit, then the host's transaction, so
that a commit in the same cycle as a transaction is ordered first (R68, R187).
-/

namespace Sys2Proof.Machine

/-- The engine's step: Idle does nothing; Busy(w) commits the command w is, or ERR_ILLEGAL (R173, R177). -/
def engineTurn (s : State) : Host.Outcome State Fault Refusal :=
  match s.engine with
  | .idle => .next s
  | .busy w =>
    match decodeWord w with
    | .ok i => exec i s
    | .error _ => .next (commitIllegal s)

/-- The engine's part of a cycle: a step if its commit falls in this cycle (R176). -/
def enginePart (c : Cycle) (s : State) : Host.Outcome State Fault Refusal :=
  if c.commit then engineTurn s else .next s

/-- One clock cycle (R68, R210): under `rst` every register is reset; otherwise the commit, if it falls in
this cycle, and then the transaction. DEDUCED: the cycle of release is the last one under `rst`; log 10. -/
def runCycle (c : Cycle) (s : State) : Host.Outcome State Fault Refusal :=
  if c.rst then .next (resetCycle c.access s)
  else
    match enginePart c s with
    | .next t => .next (serveCycle c.access t)
    | .fault r => .fault r
    | .refused r => .refused r

end Sys2Proof.Machine
end

