-- ==== Sys2Proof/Machine/Step.lean ====
section
/-!
DEFINITION. The machine's step: the next clock cycle of `inputs`, and `withFetchWord`, which puts a command
word in flight.
-/

namespace Sys2Proof.Machine

/-- One step: one clock cycle. Log 1. -/
def step (s : State) : Host.Outcome State Fault Refusal :=
  runCycle (nextCycle s) (takeCycle s)

/-- The command word of `nbits` bits of `w` in flight, so that the next step commits it (R171, R173). Log 9. -/
def State.withFetchWord (s : State) (nbits w : Nat) : State :=
  loadCommand (BitVec.ofNat 32 (w % 2 ^ nbits)) s

end Sys2Proof.Machine
end

