-- ==== Sys2Proof/Machine/Assembler.lean ====
section
/-!
DEFINITION. The assembler of R99: the text of a line, the line of a text, and the word of a text. A text that
is no line, or a line that is not well formed, gives no word.
-/

namespace Sys2Proof.Machine

/-- The text of a mnemonic, lower case (R99). -/
def mnemonicText : Mnemonic → String
  | .nop => "nop"
  | .decode => "decode"
  | .encode => "encode"
  | .retarget => "retarget"

/-- The text of a register name (R99). -/
def regText : AsmReg → String
  | .tg n => "tg" ++ toString n
  | .cb n => "cb" ++ toString n

/-- The operands' text, separated by a comma and a space (R99). -/
def operandsText : List AsmReg → String
  | [] => ""
  | [r] => regText r
  | r :: rest => regText r ++ ", " ++ operandsText rest

/-- The text of a line (R99). -/
def asmText (l : AsmLine) : String :=
  match l.operands with
  | [] => mnemonicText l.mnemonic
  | ops => mnemonicText l.mnemonic ++ " " ++ operandsText ops

/-- The mnemonic of a text (R99). -/
def parseMnemonic (cs : List Char) : Option Mnemonic :=
  if cs = ['n', 'o', 'p'] then some .nop
  else if cs = ['d', 'e', 'c', 'o', 'd', 'e'] then some .decode
  else if cs = ['e', 'n', 'c', 'o', 'd', 'e'] then some .encode
  else if cs = ['r', 'e', 't', 'a', 'r', 'g', 'e', 't'] then some .retarget
  else none

/-- The number a list of decimal digits writes; `none` if there is no digit, one is no digit, or a leading 0
stands before others. DEDUCED, safe; log 11. -/
def parseIndex : List Char → Option Nat
  | [] => none
  | '0' :: _ :: _ => none
  | cs =>
    if cs.all Char.isDigit then some (cs.foldl (fun n c => 10 * n + (c.toNat - '0'.toNat)) 0) else none

/-- The register name of a text (R99). -/
def parseReg : List Char → Option AsmReg
  | 't' :: 'g' :: ds => (parseIndex ds).map .tg
  | 'c' :: 'b' :: ds => (parseIndex ds).map .cb
  | _ => none

/-- The parts of a text between separators ", " (R99); `part` holds the current part reversed. -/
def splitOperands (part : List Char) : List Char → List (List Char)
  | [] => [part.reverse]
  | ',' :: ' ' :: rest => part.reverse :: splitOperands [] rest
  | c :: rest => splitOperands (c :: part) rest

/-- The line of a text: a mnemonic, then, after one space, its operands (R99). -/
def parseLine (cs : List Char) : Option AsmLine :=
  let head := cs.takeWhile (· != ' ')
  match parseMnemonic head, cs.dropWhile (· != ' ') with
  | some m, [] => some ⟨m, []⟩
  | some m, _ :: rest => ((splitOperands [] rest).mapM parseReg).map fun ops => ⟨m, ops⟩
  | none, _ => none

/-- The command of a well-formed line (R99). -/
def lineInstr (l : AsmLine) : Option Instr :=
  if l.wellFormed then
    match l.mnemonic, l.operands with
    | .nop, [] => some .nop
    | .decode, [.tg d, .cb s] => some (.decode (Fin.ofNat 4 d) (Fin.ofNat 4 s))
    | .encode, [.cb d, .tg s] => some (.encode (Fin.ofNat 4 d) (Fin.ofNat 4 s))
    | .retarget, [.tg d] => some (.retarget (Fin.ofNat 4 d))
    | _, _ => none
  else none

/-- The command word of a text; an assembly error gives no word (R99). -/
def assemble (text : String) : Option Word :=
  ((parseLine text.toList).bind lineInstr).map encodeInstr

end Sys2Proof.Machine
end

