-- ==== Sys2Proof/Machine/HostLines.lean ====
section
/-!
DEFINITION. The host's notation of R100: the transactions each line expands to, and the values a host makes
of what it reads. The host's own control flow (`if ... goto`, labels, `let`) makes no transaction and is
outside the block (R5, R100).
-/

namespace Sys2Proof.Machine

/-- `MemRead(off, 4)` (R15). -/
def readWord (off : Nat) : Access := .read off .bits32

/-- `MemWrite(off, 4, v)` (R15). -/
def writeWord (off : Nat) (v : Word) : Access := .write off .bits32 v

/-- Bits 32k+31 : 32k of |v| (R100). -/
def magnitudeWord (v : Int) (k : Nat) : Word :=
  BitVec.ofNat 32 (v.natAbs >>> (32 * k))

/-- A line of a host program that makes transactions (R100). -/
inductive HostLine where
  | write (off : Nat) (v : Word)
  | read (off : Nat)
  | issue (i : Instr)
  /-- `wait`, of which this run made `polls + 1` reads: "at least one read". -/
  | wait (polls : Nat)
  | clear
  | wtarget (base : Nat) (v : Int)
  | rtarget (base : Nat)
  | wtime (off : Nat) (t : Int)
deriving DecidableEq, Repr

/-- The offsets of a target-format register's 64 magnitude words (R26), in increasing order. R100 fixes that
order for `wtarget`; for `rtarget` it is a DESIGN CHOICE, log 13. -/
def magOffsets (base : Nat) : List Nat :=
  (List.range 64).map fun k => base + 0x100 + 4 * k

/-- The transactions of a line (R100). DESIGN CHOICE: `rtarget` reads the SIGN word first and then MAG[0] to
MAG[63] in increasing order; R100 gives its reads no order; log 13. -/
def expandLine : HostLine → List Access
  | .write off v => [writeWord off v]
  | .read off => [readWord off]
  | .issue i => [writeWord 0x000C (encodeInstr i)]
  | .wait polls => List.replicate (polls + 1) (readWord 0x0008)
  | .clear => [writeWord 0x0008 0x00000006#32]
  | .wtarget base v =>
    writeWord base (if v < 0 then 1#32 else 0#32)
      :: (List.range 64).map fun k => writeWord (base + 0x100 + 4 * k) (magnitudeWord v k)
  | .rtarget base => (base :: magOffsets base).map readWord
  | .wtime off t =>
    [writeWord off ((BitVec.ofInt 64 t).extractLsb' 0 32),
     writeWord (off + 4) ((BitVec.ofInt 64 t).extractLsb' 32 32)]

/-- The magnitude of words read least significant first (R62, R100). -/
def magnitudeOfWords : List Word → Nat
  | [] => 0
  | w :: ws => w.toNat + 2 ^ 32 * magnitudeOfWords ws

/-- The value `rtarget` makes of a SIGN word and the magnitude words (R26, R100). -/
def valueOfWords (signWord : Word) (mags : List Word) : Int :=
  if signWord.getLsbD 0 then -(magnitudeOfWords mags : Int) else (magnitudeOfWords mags : Int)

/-- The STATUS values a `wait` read are those of a loop that went on until BUSY was 0 (R100). -/
def waitEnded : List Word → Bool
  | [] => false
  | [st] => !st.getLsbD 0
  | st :: rest => st.getLsbD 0 && waitEnded rest

/-- A cycle that presents one transaction and in which the engine does not reach its commit. -/
def accessCycle (a : Access) : Cycle :=
  { rst := false, commit := false, access := some a }

/-- The transactions of a list served one after another, with no commit and no reset between them (R69). -/
def serveAll (as : List Access) (s : State) : State :=
  as.foldl (fun t a => serve a t) s

/-- The offset in the window of a host byte address, if it lies in the window at `BASE` (R60). -/
def windowOffset (address : Nat) : Option Nat :=
  if Config.base ≤ address ∧ address < Config.base + Config.window then some (address - Config.base) else none

end Sys2Proof.Machine
end

