-- ==== Sys2Proof/Safety.lean ====
section
/-!
DEFINITION. The terms claims are stated in: the invariant of the machine, what a cycle or a list of cycles
may not do, the end of a run (R221), and the hazards a host respects (R214, R215).
-/

namespace Sys2Proof.Safety

open Sys2Proof.Machine

/-- While Busy(w), CMD reads w, DONE is 0 and ERR is 0 (R36, R171, R175). -/
def busyConsistent (s : State) : Bool :=
  match s.engine with
  | .idle => true
  | .busy w => decide (s.cmd = w) && !s.status.done && s.status.err.isNone

/-- What FLAGS can hold: a zero result is not negative (R118, R128, R154), the span was not clamped both
ways, and a clamp, the ceiling or a mismatch is reported only when a retarget was due (R154). -/
def flagsConsistent (f : Flags) : Bool :=
  !(f.zero && f.neg) && !(f.spanLo && f.spanHi)
    && (f.due || (!f.spanLo && !f.spanHi && !f.ceil && !f.epochMismatch))

/-- The invariant: the engine, CMD and STATUS agree, and FLAGS is one a command can leave. -/
def Inv (s : State) : Prop :=
  busyConsistent s = true ∧ flagsConsistent s.flags = true

/-- A cycle without reset. -/
def noReset (c : Cycle) : Prop := c.rst = false

/-- A cycle in which the engine waits: no reset, and the commit does not fall in it. -/
def waits (c : Cycle) : Prop := c.rst = false ∧ c.commit = false

/-- The host has made its last transaction: no cycle still presented holds one (R221). -/
def lastTransactionMade (s : State) : Bool :=
  s.inputs.all fun c => c.access.isNone

/-- A run is over when the host has made its last transaction and the engine is Idle (R221). Cycles without a
transaction may still follow; they are not part of the run. -/
abbrev runOver (s : State) : Prop := lastTransactionMade s = true ∧ s.engine = .idle

/-- Results may be read: the engine is not Busy (R214, R219). -/
def resultsReadable (s : State) : Prop := busy s = false

/-- No write was dropped since the host last cleared WDROP (R215). -/
def noWriteLost (s : State) : Prop := s.status.wdrop = false

/-- The registers a command reads agree in two states (R38, R172): CB, TG, the headers, the configuration. -/
def sameOperands (s t : State) : Prop :=
  s.cb = t.cb ∧ s.tg = t.tg ∧ s.hdrS = t.hdrS ∧ s.hdrE = t.hdrE ∧ s.timespan = t.timespan ∧
    s.epochLen = t.epochLen ∧ s.powLimit = t.powLimit ∧ s.ctrl = t.ctrl

/-- Every register word the host can read reads the same in both states, but for STATUS, FLAGS and the words
of `changed`: the frame of a command, over the whole window (R38, R63). -/
def sameWindowExcept (changed : WindowReg → Prop) (s t : State) : Prop :=
  ∀ r : WindowReg, r ≠ .status → r ≠ .flags → ¬ changed r → readReg r t = readReg r s

/-- The 65 words of TG[i] (R26, R27). -/
def ofTg (i : Fin 4) (r : WindowReg) : Prop :=
  r = .sign (.tg i) ∨ ∃ k, r = .mag (.tg i) k

/-- The word of CB[i] (R28). -/
def ofCb (i : Fin 4) (r : WindowReg) : Prop :=
  r = .cb i

/-- No word. -/
def ofNothing (_ : WindowReg) : Prop := False

/-- What every commit leaves: the engine Idle, DONE 1, ERR as given, WDROP as it was (R173), and the
environment's inputs and the port's answer untouched. -/
def committed (err : Option CmdError) (s t : State) : Prop :=
  t.engine = .idle ∧ t.status.done = true ∧ t.status.err = err ∧ t.status.wdrop = s.status.wdrop ∧
    t.inputs = s.inputs ∧ t.port = s.port

/-- `n` steps, stopping at the first fault or refusal. -/
def run : Nat → State → Host.Outcome State Fault Refusal
  | 0, s => .next s
  | n + 1, s =>
    match step s with
    | .next t => run n t
    | .fault r => .fault r
    | .refused r => .refused r

/-- Steps until the run is over, at most `n` of them; it stops in the state in which the run is over (R221). -/
def runUntilOver : Nat → State → Host.Outcome State Fault Refusal
  | 0, s => .next s
  | n + 1, s =>
    if runOver s then .next s
    else
      match step s with
      | .next t => runUntilOver n t
      | .fault r => .fault r
      | .refused r => .refused r

/-- The end state of a run: the state when the run is over, not a later one (R221). One step more than there
are cycles is enough; log 1. -/
def endState (s : State) : Host.Outcome State Fault Refusal :=
  runUntilOver (s.inputs.length + 1) s

/-- The cycles in which a host issues a command and, one cycle later, the engine commits it (R178). -/
def issueThenCommit (i : Instr) : List Cycle :=
  [accessCycle (writeWord 0x000C (encodeInstr i)), quietCycle]

/-- The commands' functions applied one after another to the registers (R178). -/
def applyCommands (is : List Instr) (s : State) : State :=
  is.foldl (fun t i => match exec i t with
    | .next u => u
    | .fault _ => t
    | .refused _ => t) s

/-- A state but for WDROP and the port's last answer: of what a transaction can change while the engine is
Busy (R174), these are what a commit leaves as they are. -/
def apartFromPort (s : State) : State :=
  { s with port := none, status := { s.status with wdrop := false } }

end Sys2Proof.Safety
end

