-- ==== Sys2Proof/Certificates/Slice0/Obligations.lean ====
section
/-!
DEFINITION. The statements for the provers, from the numbered rules of spec/. Frames are said over every
register word of the window (`sameWindowExcept`): the window is the machine's whole address space (R60).
A statement about a command says that `exec` answers a next state and what that state holds.
-/

open Sys2Proof Sys2Proof.Machine Sys2Proof.Safety

/-! ## Encoding -/

/-- R98: the example words and the illegal examples. -/
def Obligations.ExampleWordsDecode : Prop :=
  (assemble "nop" = some 0x00000000#32 ∧ decodeWord 0x00000000#32 = .ok .nop) ∧
  (assemble "decode tg0, cb0" = some 0x00000001#32 ∧ decodeWord 0x00000001#32 = .ok (.decode 0 0)) ∧
  (assemble "decode tg1, cb2" = some 0x00002101#32 ∧ decodeWord 0x00002101#32 = .ok (.decode 1 2)) ∧
  (assemble "encode cb1, tg0" = some 0x00000102#32 ∧ decodeWord 0x00000102#32 = .ok (.encode 1 0)) ∧
  (assemble "encode cb3, tg2" = some 0x00002302#32 ∧ decodeWord 0x00002302#32 = .ok (.encode 3 2)) ∧
  (assemble "retarget tg1" = some 0x00000103#32 ∧ decodeWord 0x00000103#32 = .ok (.retarget 1)) ∧
  (assemble "retarget tg3" = some 0x00000303#32 ∧ decodeWord 0x00000303#32 = .ok (.retarget 3)) ∧
  decodeWord 0x00000004#32 = .error .reservedOpcode ∧
  decodeWord 0x00000401#32 = .error .mustBeZero ∧
  decodeWord 0x00001003#32 = .error .mustBeZero ∧
  decodeWord 0x00000100#32 = .error .mustBeZero ∧
  decodeWord 0x80000001#32 = .error .mustBeZero

/-- Decode and encode agree, over every word and every command: a word decodes to a command exactly when it
is that command's word (30_encoding.md sections 1 and 2). -/
def Obligations.DecodeInvertsEncode : Prop :=
  ∀ (w : Word) (i : Instr), decodeWord w = .ok i ↔ w = encodeInstr i

/-- R95: the decoder is the table of masks and matches, its rows are disjoint, and what no row selects is
illegal. -/
def Obligations.DecoderFollowsOpcodeTable : Prop :=
  (∀ w : Word, decodeWord w = .ok .nop ↔ w &&& 0xFFFFFFFF#32 = 0x00000000#32) ∧
  (∀ w : Word,
    decodeWord w = .ok (.decode (dField w) (sField w)) ↔ w &&& 0xFFFFCCFF#32 = 0x00000001#32) ∧
  (∀ w : Word,
    decodeWord w = .ok (.encode (dField w) (sField w)) ↔ w &&& 0xFFFFCCFF#32 = 0x00000002#32) ∧
  (∀ w : Word, decodeWord w = .ok (.retarget (dField w)) ↔ w &&& 0xFFFFFCFF#32 = 0x00000003#32) ∧
  (∀ (w : Word) (i : Instr), decodeWord w = .ok i →
    i = .nop ∨ i = .decode (dField w) (sField w) ∨ i = .encode (dField w) (sField w) ∨ i = .retarget (dField w)) ∧
  (∀ w : Word, (∃ e, decodeWord w = .error e) ↔ ∀ r ∈ opcodeTable, r.selects w = false) ∧
  (∀ w : Word, ∀ r ∈ opcodeTable, ∀ r' ∈ opcodeTable, r.selects w = true → r'.selects w = true → r = r') ∧
  (∀ r ∈ opcodeTable, r.mask &&& 0xFF#32 = 0xFF#32)

/-- R91 and R93: OP selects the command, and exactly the words with an undefined OP or a must-be-zero bit set
are illegal. -/
def Obligations.IllegalWordsExactly : Prop :=
  ∀ w : Word,
    (∀ i, decodeWord w = .ok i →
      (opField w = 0x00#8 ∧ i = .nop) ∨ (opField w = 0x01#8 ∧ i = .decode (dField w) (sField w)) ∨
      (opField w = 0x02#8 ∧ i = .encode (dField w) (sField w)) ∨ (opField w = 0x03#8 ∧ i = .retarget (dField w))) ∧
    (decodeWord w = .error .reservedOpcode ↔ 4 ≤ (opField w).toNat) ∧
    (decodeWord w = .error .mustBeZero ↔
      (opField w).toNat < 4 ∧
        (w.extractLsb' 10 2 ≠ 0#2 ∨ w.extractLsb' 14 18 ≠ 0#18 ∨
          (opField w = 0x00#8 ∧ (dField w ≠ 0 ∨ sField w ≠ 0)) ∨ (opField w = 0x03#8 ∧ sField w ≠ 0)))

/-- 20_memory.md section 1 (byte lanes) and 30_encoding.md section 2 (length): the four little-endian lanes of
a word carry the word, and the byte decoder takes exactly those four bytes. -/
def Obligations.ByteLanesCarryTheWord : Prop :=
  (∀ (w : Word) (i : Instr) (rest : List Byte), decodeWord w = .ok i →
    decodeBytes (lanesOfWord w ++ rest) = .ok (i, rest)) ∧
  (∀ (w : Word) (e : DecodeError) (rest : List Byte), decodeWord w = .error e →
    decodeBytes (lanesOfWord w ++ rest) = .error e) ∧
  (∀ (nbits w : Nat) (i : Instr), w < 2 ^ nbits → w < 2 ^ 32 →
    (decodeTableWord nbits w = some i ↔ decodeWord (BitVec.ofNat 32 w) = .ok i))

/-- 30_encoding.md section 3: the lines that give a command are exactly the ones commands are written as, and
every command's text assembles to its word; any other index or register file gives no word. That upper case and
a missing or extra operand give no word is the model's choice, log 11. -/
def Obligations.AssemblerAcceptsExactlyCommands : Prop :=
  (∀ (l : AsmLine) (i : Instr), lineInstr l = some i ↔ l = i.asmLine) ∧
  (∀ l : AsmLine, l.wellFormed = false ↔ lineInstr l = none) ∧
  (∀ i : Instr, assemble (asmText i.asmLine) = some (encodeInstr i)) ∧
  (∀ (text : String) (w : Word), assemble text = some w → ∃ i : Instr, w = encodeInstr i) ∧
  asmText (Instr.asmLine .nop) = "nop" ∧ asmText (Instr.decode 2 1).asmLine = "decode tg2, cb1" ∧
  asmText (Instr.encode 0 3).asmLine = "encode cb0, tg3" ∧ asmText (Instr.retarget 1).asmLine = "retarget tg1" ∧
  assemble "decode tg4, cb0" = none ∧ assemble "decode cb0, tg0" = none ∧ assemble "encode tg1, cb1" = none ∧
  assemble "retarget cb1" = none ∧ assemble "NOP" = none

/-! ## The step -/

/-- 42_control.md section 2: a cycle in which the engine commits runs the decoded command (or commits the
illegal word), and then serves the cycle's transaction; a cycle in which it does not, or an Idle engine, only
serves the transaction; a served read there answers the word the register holds and changes nothing but the
port's answer. Cycles as `inputs` are the model's choice, log 1. -/
def Obligations.StepRunsTheDecodedCommand : Prop :=
  (∀ (s : State) (w : Word) (i : Instr), s.engine = .busy w → decodeWord w = .ok i →
    (nextCycle s).rst = false → (nextCycle s).commit = true →
    ∃ t, exec i (takeCycle s) = .next t ∧ step s = .next (serveCycle (nextCycle s).access t)) ∧
  (∀ (s : State) (w : Word) (i : Instr), s.engine = .busy w → decodeWord w = .ok i → s.inputs = [] →
    step s = exec i (takeCycle s)) ∧
  (∀ (s : State) (w : Word) (e : DecodeError), s.engine = .busy w → decodeWord w = .error e →
    (nextCycle s).rst = false → (nextCycle s).commit = true →
    step s = .next (serveCycle (nextCycle s).access (commitIllegal (takeCycle s)))) ∧
  (∀ s : State, (nextCycle s).rst = false → (s.engine = .idle ∨ (nextCycle s).commit = false) →
    step s = .next (serveCycle (nextCycle s).access (takeCycle s))) ∧
  (∀ (s : State) (off : Nat), (nextCycle s).rst = false → (s.engine = .idle ∨ (nextCycle s).commit = false) →
    (nextCycle s).access = some (.read off .bits32) → off % 4 = 0 → off < 0x2000 →
    step s = .next { takeCycle s with port := some (.okRead (readOffset off s)) })

/-- 60_exceptions.md section 3 and 42_control.md section 2: the machine never stops, whatever it holds and
whatever the environment presents. -/
def Obligations.EveryStepAnswersNext : Prop :=
  ∀ s : State, ∃ t, step s = .next t

/-! ## Reset -/

/-- R40: the value of every register at reset, read through the window. -/
def Obligations.ResetValuesOfTheSpec : Prop :=
  readOffset 0x0000 State.reset = 0x43425831#32 ∧ readOffset 0x0004 State.reset = 0x00000000#32 ∧
  readOffset 0x0008 State.reset = 0x00000000#32 ∧ readOffset 0x000C State.reset = 0x00000000#32 ∧
  readOffset 0x0010 State.reset = 0x00000000#32 ∧ readOffset 0x0014 State.reset = 0x00127500#32 ∧
  readOffset 0x0018 State.reset = 0x000007E0#32 ∧
  (∀ i : Fin 4, readReg (.cb i) State.reset = 0#32) ∧
  (∀ side field, readReg (.hdr side field) State.reset = 0#32) ∧
  (∀ i : Fin 4, readReg (.sign (.tg i)) State.reset = 0#32 ∧ ∀ k, readReg (.mag (.tg i) k) State.reset = 0#32) ∧
  readReg (.sign .powLimit) State.reset = 0#32 ∧
  (∀ k : Fin 64, readReg (.mag .powLimit k) State.reset = if k.val < 7 then 0xFFFFFFFF#32 else 0#32) ∧
  targetValue State.reset.powLimit = 2 ^ 224 - 1 ∧
  State.reset.engine = .idle ∧ irq State.reset = false

/-- 70_reset_and_hazards.md section 1: a cycle with rst asserted puts every register at its reset value and the
engine at Idle, whatever was in flight, and its transaction has no effect; a read gets 0 with OK. Cycles as
`inputs` are the model's choice, log 1. -/
def Obligations.ResetCycleAbandonsEverything : Prop :=
  ∀ s : State, (nextCycle s).rst = true →
    ∃ t, step s = .next t ∧ t.engine = .idle ∧ (∀ r : WindowReg, readReg r t = readReg r State.reset) ∧
      t.inputs = s.inputs.tail ∧
      (∀ off, (nextCycle s).access = some (.read off .bits32) → off % 4 = 0 → off < 0x2000 →
        t.port = some (.okRead 0#32)) ∧
      ((nextCycle s).access = none → t = { State.reset with inputs := s.inputs.tail })

/-! ## Values -/

/-- 10_state.md section 3 and 00_scope.md section 5: a target-format register's value, and what `put` writes. -/
def Obligations.PutAndValueAgree : Prop :=
  (∀ x : Target, -(2 ^ 2048 - 1) ≤ targetValue x ∧ targetValue x ≤ 2 ^ 2048 - 1) ∧
  targetValue { sign := true, mag := 0#2048 } = 0 ∧
  (∀ v : Int, v.natAbs < 2 ^ 2048 →
    targetValue (putTarget v) = v ∧ (putTarget v).mag.toNat = v.natAbs ∧ ((putTarget v).sign = true ↔ v < 0))

/-- R12: bitlen is the least k with a < 2^k, and bytelen is its eighth rounded up, the least number of bytes. -/
def Obligations.LengthsAreLeast : Prop :=
  ∀ a : Nat,
    a < 2 ^ bitlen a ∧ (∀ k, a < 2 ^ k → bitlen a ≤ k) ∧
    8 * bytelen a < bitlen a + 8 ∧ bitlen a ≤ 8 * bytelen a ∧
    a < 256 ^ bytelen a ∧ (∀ k, a < 256 ^ k → bytelen a ≤ k)

/-! ## NOP -/

/-- 42_control.md section 1: NOP completes in every state, with FLAGS and ERR 0 and nothing else changed. -/
def Obligations.NopOnlyCompletes : Prop :=
  ∀ s : State, ∃ t, exec .nop s = .next t ∧ flagsWord t.flags = 0x00000000#32 ∧ committed none s t ∧
    sameWindowExcept ofNothing s t

/-! ## Decode -/

/-- R112 and R113: Decode in arithmetic on the word's numeric fields. -/
def Obligations.DecodeIsTheFormula : Prop :=
  ∀ c : Word,
    let m : Nat := c.toNat % 2 ^ 23
    let neg : Nat := c.toNat / 2 ^ 23 % 2
    let e : Nat := c.toNat / 2 ^ 24
    let a : Nat := if e ≤ 3 then m / 2 ^ (8 * (3 - e)) else m * 256 ^ (e - 3)
    compactDecode c = (if neg = 1 then -(a : Int) else (a : Int)) ∧ (m = 0 → compactDecode c = 0)

/-- R115: the range of Decode, its extremes, and that a target register holds every result exactly. -/
def Obligations.DecodeFitsTargetRegister : Prop :=
  (∀ c : Word, (compactDecode c).natAbs ≤ 0x7FFFFF * 256 ^ 252) ∧ 0x7FFFFF * 256 ^ 252 < 2 ^ 2039 ∧
  compactDecode 0xFF7FFFFF#32 = 0x7FFFFF * 256 ^ 252 ∧ compactDecode 0xFFFFFFFF#32 = -(0x7FFFFF * 256 ^ 252) ∧
  (∀ c : Word, targetValue (putTarget (compactDecode c)) = compactDecode c)

/-- R116: a negative zero is written as SIGN 0, MAG 0, and SIGN_IN still reports the sign bit. -/
def Obligations.DecodeNegativeZeroIsPositive : Prop :=
  ∀ (dst src : Fin 4) (s : State), (readCb src s).getLsbD 23 = true →
    (compactMantissa (readCb src s) = 0 ∨
      (compactExponent (readCb src s) < 3 ∧
        compactMantissa (readCb src s) / 2 ^ (8 * (3 - compactExponent (readCb src s))) = 0)) →
    compactDecode (readCb src s) = 0 ∧
    ∃ t, exec (.decode dst src) s = .next t ∧ readTg dst t = { sign := false, mag := 0#2048 } ∧
      t.flags.signIn = true

/-- R118, with the result and the frame of 40_codec.md section 3: DECODE completes in every state. -/
def Obligations.DecodeWritesTargetAndFlags : Prop :=
  ∀ (dst src : Fin 4) (s : State),
    let c := readCb src s
    let v := compactDecode c
    ∃ t, exec (.decode dst src) s = .next t ∧
      targetValue (readTg dst t) = v ∧ (v = 0 → (readTg dst t).sign = false) ∧
      t.flags = { Flags.clear with zero := decide (v = 0), neg := decide (v < 0), signIn := c.getLsbD 23 } ∧
      (t.flags.neg = true → t.flags.signIn = true) ∧
      (t.flags.signIn = true ∧ t.flags.neg = false ↔ v = 0 ∧ c.getLsbD 23 = true) ∧
      committed none s t ∧ sameWindowExcept (ofTg dst) s t

/-! ## Encode -/

/-- R121: every representation of zero encodes to the zero word, and Decode takes it back. -/
def Obligations.EncodeZeroIsZeroWord : Prop :=
  compactEncode 0 = .word 0x00000000#32 false ∧ compactDecode 0x00000000#32 = 0 ∧
  ∀ (dst src : Fin 4) (s : State), (readTg src s).mag = 0#2048 →
    ∃ t, exec (.encode dst src) s = .next t ∧ readCb dst t = 0x00000000#32 ∧
      t.flags = { Flags.clear with zero := true } ∧ committed none s t

/-- R122: the mantissa's bounds before and after step 5, and the two canonical ranges. -/
def Obligations.EncodedWordsAreCanonical : Prop :=
  (∀ a : Nat, rawMantissa a (bytelen a) < 2 ^ 24 ∧
    ∀ k, 24 ≤ k → rawMantissa a (bytelen a) % 2 ^ k = rawMantissa a (bytelen a)) ∧
  ∀ (v : Int) (w : Word) (ovf : Bool), v ≠ 0 → compactEncode v = .word w ovf →
    1 ≤ compactExponent w ∧ compactExponent w ≤ 255 ∧ compactSign w = decide (v < 0) ∧
    compactMantissa w =
      (if ovf then rawMantissa v.natAbs (bytelen v.natAbs) / 256 else rawMantissa v.natAbs (bytelen v.natAbs)) ∧
    (ovf = false → 0x010000 ≤ compactMantissa w ∧ compactMantissa w ≤ 0x7FFFFF) ∧
    (ovf = true → 0x008000 ≤ compactMantissa w ∧ compactMantissa w ≤ 0x00FFFF)

/-- R123: Encode keeps the top three bytes (two with OVF) and truncates the magnitude toward zero. -/
def Obligations.EncodeTruncatesMagnitude : Prop :=
  ∀ (v : Int) (w : Word) (ovf : Bool), compactEncode v = .word w ovf →
    compactDecode w =
      v.sign * ((v.natAbs / 2 ^ (8 * (compactExponent w - 3)) * 2 ^ (8 * (compactExponent w - 3)) : Nat) : Int) ∧
    (compactExponent w ≤ 3 → compactDecode w = v) ∧
    (v ≠ 0 → compactExponent w = bytelen v.natAbs + (if ovf then 1 else 0))

/-- R124: the round trips (a), (b) and (c). -/
def Obligations.CodecRoundTrips : Prop :=
  (∀ (n : Int) (m k : Nat) (w : Word) (ovf : Bool), n.natAbs = m * 256 ^ k → m < 2 ^ 23 →
    compactEncode n = .word w ovf → compactDecode w = n) ∧
  (∀ (n : Int) (w : Word) (ovf : Bool), 0 < n → compactEncode n = .word w ovf → compactDecode w = n →
    compactDecode (w ||| 0x00800000#32) = -n) ∧
  (compactEncode (0xD0F6 * 2 ^ 168) = .word 0x1800D0F6#32 true ∧ compactDecode 0x1880D0F6#32 = -(0xD0F6 * 2 ^ 168)) ∧
  (compactDecode 0x04000001#32 = 0x100 ∧ compactEncode 0x100 = .word 0x02010000#32 false) ∧
  (∀ (v : Int) (w : Word) (ovf : Bool), compactEncode v = .word w ovf →
    w ≠ 0x04000001#32 ∧ (w = 0#32 ∨ (1 ≤ compactExponent w ∧ 0x008000 ≤ compactMantissa w)))

/-- 40_codec.md section 4: Encode is RANGE exactly at magnitudes of at least 2^2039, that is where bytelen is
256, or is 255 with the overflow correction, for every value a target register can hold. -/
def Obligations.EncodeRangeExactly : Prop :=
  (∀ v : Int, compactEncode v = .range ↔ 2 ^ 2039 ≤ v.natAbs) ∧
  (∀ v : Int, v.natAbs < 2 ^ 2048 →
    (compactEncode v = .range ↔
      bytelen v.natAbs = 256 ∨ (bytelen v.natAbs = 255 ∧ (rawMantissa v.natAbs 255).testBit 23 = true)))

/-- R128, with the result and the frame of 40_codec.md section 5: ENCODE completes on every source below
2^2039 in magnitude. -/
def Obligations.EncodeWritesWordAndFlags : Prop :=
  (∀ (dst src : Fin 4) (s : State),
    let v := targetValue (readTg src s)
    v.natAbs < 2 ^ 2039 →
    ∃ t w ovf, exec (.encode dst src) s = .next t ∧ compactEncode v = .word w ovf ∧ readCb dst t = w ∧
      t.flags = { Flags.clear with
        zero := decide (w = 0#32), neg := w.getLsbD 23, ovf := ovf, lossy := decide (compactDecode w ≠ v) } ∧
      (w = 0#32 ↔ v = 0) ∧ (w.getLsbD 23 = true ↔ v < 0) ∧
      committed none s t ∧ sameWindowExcept (ofCb dst) s t) ∧
  (compactEncode 0x80 = .word 0x02008000#32 true ∧ compactDecode 0x02008000#32 = 0x80)

/-- 40_codec.md section 5: on a source of magnitude at least 2^2039 ENCODE fails with ERR_RANGE and changes
nothing but STATUS. -/
def Obligations.EncodeOutOfRangeChangesOnlyStatus : Prop :=
  ∀ (dst src : Fin 4) (s : State), 2 ^ 2039 ≤ (targetValue (readTg src s)).natAbs →
    ∃ t, exec (.encode dst src) s = .next t ∧ committed (some .range) s t ∧ t.flags = s.flags ∧
      sameWindowExcept ofNothing s t ∧ (statusWord t).extractLsb' 8 4 = 2#4

/-! ## Retarget -/

/-- R31: the timestamp of a header. -/
def Obligations.HeaderTimeIsSignExtended : Prop :=
  ∀ h : Header,
    headerTime h =
      (h.timeHi.toNat : Int) * 2 ^ 32 + h.timeLo.toNat - (if h.timeHi.getLsbD 31 then 2 ^ 64 else 0) ∧
    -(2 ^ 63) ≤ headerTime h ∧ headerTime h ≤ 2 ^ 63 - 1

/-- 41_retarget.md section 2 (step 1): a retarget is due when `height + 1` is a multiple of EPOCH_LEN; the two
readings of `height + 1`, and the one height where they differ. Which reading holds is open, log 3. -/
def Obligations.HeightReadingsDifferOnce : Prop :=
  (∀ (hm : Config.HeightIncMode) (x : RetargetInputs),
    retargetDue hm x = true ↔ heightPlusOne hm x.hE % x.L = 0) ∧
  (∀ hE : Nat, hE < 2 ^ 32 →
    heightPlusOne .exact hE = hE + 1 ∧ heightPlusOne .wrap32 hE = (hE + 1) % 2 ^ 32 ∧
    (heightPlusOne .exact hE ≠ heightPlusOne .wrap32 hE ↔ hE = 0xFFFFFFFF)) ∧
  heightPlusOne .exact 0xFFFFFFFF = 2 ^ 32 ∧ heightPlusOne .wrap32 0xFFFFFFFF = 0 ∧
  heightPlusOne .exact 0xFFFFFFFF % 2016 = 256 ∧ heightPlusOne .wrap32 0xFFFFFFFF % 2016 = 0

/-- R145: the raw timespan is exact, and saturating it outside the clamp's bounds changes no span. -/
def Obligations.RawSpanIsExact : Prop :=
  (∀ s : State,
    rawSpan (retargetInputs s) = headerTime s.hdrE - headerTime s.hdrS ∧
    -(2 ^ 64 - 1) ≤ rawSpan (retargetInputs s) ∧ rawSpan (retargetInputs s) ≤ 2 ^ 64 - 1) ∧
  (∀ (x y : RetargetInputs) (lo hi : Int), y.T = x.T → lo ≤ spanMin x → spanMax x ≤ hi →
    rawSpan y = max lo (min (rawSpan x) hi) → clampedSpan y = clampedSpan x)

/-- R146: the clamp of the timespan. -/
def Obligations.SpanClampBounds : Prop :=
  (∀ x : RetargetInputs, 1 ≤ x.T →
    spanMin x = (x.T : Int) / 4 ∧ spanMax x = 4 * (x.T : Int) ∧ spanMin x ≤ x.T ∧ (x.T : Int) ≤ spanMax x ∧
    clampedSpan x = max (spanMin x) (min (rawSpan x) (spanMax x)) ∧
    (4 ≤ x.T → 1 ≤ clampedSpan x) ∧ (x.T ≤ 3 → spanMin x = 0 ∧ (rawSpan x ≤ 0 → clampedSpan x = 0))) ∧
  (∀ x : RetargetInputs, x.T = 1209600 → spanMin x = 302400 ∧ spanMax x = 4838400)

/-- 41_retarget.md section 2 (step 5): the division under both readings. Which one holds is open, log 4. -/
def Obligations.QuotientReadings : Prop :=
  ∀ x : RetargetInputs, 0 < x.T →
    let p := compactDecode x.bE * clampedSpan x
    (0 ≤ p → quotient .trunc x = p / (x.T : Int) ∧ quotient .floor x = p / (x.T : Int)) ∧
    (p < 0 → quotient .trunc x = -(-p / (x.T : Int)) ∧ quotient .floor x = p / (x.T : Int)) ∧
    (p < 0 → ¬ (x.T : Int) ∣ p → quotient .trunc x = quotient .floor x + 1) ∧
    ((x.T : Int) ∣ p → quotient .trunc x = quotient .floor x) ∧
    (p < 0 → compactSign x.bE = true ∧ compactDecode x.bE ≠ 0)

/-- 41_retarget.md section 2 (range and datapath): the bounds of the product and the quotient, and that a
target register holds every result exactly. -/
def Obligations.RetargetNeverOverflows : Prop :=
  ∀ (hm : Config.HeightIncMode) (nm : Config.NegQuotMode) (s : State),
    let x := retargetInputs s
    (0 < x.T →
      0 ≤ clampedSpan x ∧ clampedSpan x < 2 ^ 34 ∧
      (compactDecode x.bE * clampedSpan x).natAbs < 2 ^ 2073 ∧
      (quotient .trunc x).natAbs ≤ 4 * (compactDecode x.bE).natAbs ∧
      (quotient .floor x).natAbs ≤ 4 * (compactDecode x.bE).natAbs + 1 ∧
      (quotient nm x).natAbs < 2 ^ 2042) ∧
    ∀ r, nextTarget hm nm x = .target r → targetValue (putTarget r) = r

/-- R144, with RETARGET's frame: no retarget due gives the decoded bits unchanged, whatever the timestamps,
TIMESPAN, the start height and POW_LIMIT hold; above POW_LIMIT and below zero happen. -/
def Obligations.RetargetPassesThroughWhenNotDue : Prop :=
  (∀ (dst : Fin 4) (s : State), s.epochLen.toNat ≠ 0 →
    heightPlusOne Config.heightIncMode s.hdrE.height.toNat % s.epochLen.toNat ≠ 0 →
    ∃ t, exec (.retarget dst) s = .next t ∧
      targetValue (readTg dst t) = compactDecode s.hdrE.bits ∧
      (compactDecode s.hdrE.bits = 0 → (readTg dst t).sign = false) ∧
      t.flags = { Flags.clear with
        zero := decide (compactDecode s.hdrE.bits = 0), neg := decide (compactDecode s.hdrE.bits < 0) } ∧
      committed none s t ∧ sameWindowExcept (ofTg dst) s t) ∧
  (∃ s t, exec (.retarget 0) s = .next t ∧ t.status.err = none ∧ t.flags.due = false ∧
    targetValue (readTg 0 t) > targetValue s.powLimit) ∧
  (∃ s t, exec (.retarget 0) s = .next t ∧ t.status.err = none ∧ t.flags.due = false ∧
    targetValue (readTg 0 t) < 0)

/-- 41_retarget.md sections 2 to 4: a due RETARGET that passes the checks completes, with the quotient of the
exact product under the ceiling, the flags of its steps, and nothing else changed, whatever the two open
parameters are (log 3, log 4). -/
def Obligations.RetargetComputesNextTarget : Prop :=
  ∀ (dst : Fin 4) (s : State),
    let hp1 := heightPlusOne Config.heightIncMode s.hdrE.height.toNat
    let L := s.epochLen.toNat
    let T : Int := s.timespan.toNat
    let PL := targetValue s.powLimit
    let raw := headerTime s.hdrE - headerTime s.hdrS
    let span := max (T / 4) (min raw (4 * T))
    let p := compactDecode s.hdrE.bits * span
    let q := if Config.negQuotMode = .floor then p.fdiv T else p.tdiv T
    let r := min q PL
    let mism := decide ((s.hdrS.height.toNat : Int) ≠ (hp1 : Int) - (L : Int))
    L ≠ 0 → hp1 % L = 0 → T ≠ 0 → (s.ctrl.strictEpoch = true → mism = false) →
    ∃ t, exec (.retarget dst) s = .next t ∧
      targetValue (readTg dst t) = r ∧ (r = 0 → (readTg dst t).sign = false) ∧
      t.flags = { Flags.clear with
        zero := decide (r = 0), neg := decide (r < 0), due := true, spanLo := decide (raw < T / 4),
        spanHi := decide (raw > 4 * T), ceil := decide (q > PL), epochMismatch := mism } ∧
      committed none s t ∧ sameWindowExcept (ofTg dst) s t

/-- R155: exactly one outcome, decided in this order; a failing RETARGET changes nothing but STATUS, and a word
that is not a command is ERR_ILLEGAL before any register is looked at. STATUS[11:8] reads the codes 1, 3, 4
and 0 of 60_exceptions.md section 1. -/
def Obligations.RetargetChecksInOrder : Prop :=
  (∀ (w : Word) (e : DecodeError) (s : State), s.engine = .busy w → decodeWord w = .error e →
    ∃ t, engineTurn s = .next t ∧ committed (some .illegal) s t ∧ t.flags = s.flags ∧
      sameWindowExcept ofNothing s t ∧ (readReg .status t).extractLsb' 8 4 = 1#4) ∧
  ∀ (dst : Fin 4) (s : State),
    let hp1 := heightPlusOne Config.heightIncMode s.hdrE.height.toNat
    let L := s.epochLen.toNat
    ∃ t, exec (.retarget dst) s = .next t ∧
      t.status.err =
        (if L = 0 then some .config
         else if hp1 % L ≠ 0 then none
         else if s.timespan.toNat = 0 then some .config
         else if s.ctrl.strictEpoch = true ∧ (s.hdrS.height.toNat : Int) ≠ (hp1 : Int) - (L : Int) then some .epoch
         else none) ∧
      (readReg .status t).extractLsb' 8 4 =
        (if L = 0 then 3#4
         else if hp1 % L ≠ 0 then 0#4
         else if s.timespan.toNat = 0 then 3#4
         else if s.ctrl.strictEpoch = true ∧ (s.hdrS.height.toNat : Int) ≠ (hp1 : Int) - (L : Int) then 4#4
         else 0#4) ∧
      (t.status.err ≠ none →
        committed t.status.err s t ∧ t.flags = s.flags ∧ sameWindowExcept ofNothing s t)

/-- R154: RETARGET's flags at every success. -/
def Obligations.RetargetFlagsOfTheRule : Prop :=
  ∀ (dst : Fin 4) (s t : State), exec (.retarget dst) s = .next t → t.status.err = none →
    let x := retargetInputs s
    let hp1 := heightPlusOne Config.heightIncMode s.hdrE.height.toNat
    let r := targetValue (readTg dst t)
    t.flags.zero = decide (r = 0) ∧ t.flags.neg = decide (r < 0) ∧
    t.flags.due = decide (hp1 % s.epochLen.toNat = 0) ∧
    t.flags.spanLo = (t.flags.due && decide (rawSpan x < spanMin x)) ∧
    t.flags.spanHi = (t.flags.due && decide (rawSpan x > spanMax x)) ∧
    t.flags.ceil = (t.flags.due && decide (quotient Config.negQuotMode x > targetValue s.powLimit)) ∧
    t.flags.epochMismatch =
      (t.flags.due && decide ((s.hdrS.height.toNat : Int) ≠ (hp1 : Int) - (s.epochLen.toNat : Int))) ∧
    ¬ (t.flags.spanLo = true ∧ t.flags.spanHi = true) ∧
    t.flags.signIn = false ∧ t.flags.ovf = false ∧ t.flags.lossy = false ∧
    (t.flags.due = false →
      t.flags = { Flags.clear with zero := t.flags.zero, neg := t.flags.neg })

/-- R156: the properties the document states of NextTarget, over both readings of both parameters. -/
def Obligations.NextTargetProperties : Prop :=
  ∀ (hm : Config.HeightIncMode) (nm : Config.NegQuotMode),
    (∀ x : RetargetInputs, 0 < x.T → ((x.T / 4 : Nat) : Int) ≤ clampedSpan x ∧ clampedSpan x ≤ 4 * (x.T : Int)) ∧
    (∀ (x : RetargetInputs) (r : Int), retargetDue hm x = true → nextTarget hm nm x = .target r → r ≤ x.PL) ∧
    (∃ (x : RetargetInputs) (r : Int), nextTarget hm nm x = .target r ∧ r = compactDecode x.bE ∧ x.PL < r) ∧
    (∀ (x : RetargetInputs) (r : Int), retargetDue hm x = true → nextTarget hm nm x = .target r →
      0 ≤ compactDecode x.bE →
      compactDecode x.bE * ((x.T / 4 : Nat) : Int) / (x.T : Int) ≤ quotient nm x ∧
      quotient nm x ≤ 4 * compactDecode x.bE ∧ r = min (quotient nm x) x.PL) ∧
    (∀ s t : State, sameOperands s t →
      nextTarget hm nm (retargetInputs s) = nextTarget hm nm (retargetInputs t))

/-- 10_state.md section 8 (register use): HDR_S.BITS is held for the host only; no command's result depends
on it. -/
def Obligations.StartBitsAreNeverRead : Prop :=
  ∀ (i : Instr) (s : State) (b : Word),
    ∃ t u, exec i s = .next t ∧ exec i { s with hdrS := { s.hdrS with bits := b } } = .next u ∧
      u = { t with hdrS := { t.hdrS with bits := b } }

/-- 41_retarget.md section 4 and 95_test_vectors.md V-L1-1: the document's scenario, from reset values and the
eight header words, gives the target and then the compact word the document expects. -/
def Obligations.DocumentScenario : Prop :=
  let s : State := { State.reset with
    hdrS := { height := 0x00079140#32, bits := 0x1800D0F6#32, timeLo := 0x5A18E92C#32, timeHi := 0#32 }
    hdrE := { height := 0x0007991F#32, bits := 0x1800D0F6#32, timeLo := 0x5A2889D2#32, timeHi := 0#32 } }
  ∃ t u, exec (.retarget 1) s = .next t ∧
    targetValue (readTg 1 t) = 0xB0ED44672894AB6CD8EFB11D33F5617839A5BC7DEA00C2 ∧
    flagsWord t.flags = 0x00000020#32 ∧ exec (.encode 0 1) t = .next u ∧
    readCb 0 u = 0x1800B0ED#32 ∧ flagsWord u.flags = 0x00000018#32

/-! ## Errors -/

/-- R182: which errors each command can raise; a transaction raises none. -/
def Obligations.ErrorsEachCommandRaises : Prop :=
  (∀ (s t : State), exec .nop s = .next t → t.status.err = none) ∧
  (∀ (dst src : Fin 4) (s t : State), exec (.decode dst src) s = .next t → t.status.err = none) ∧
  (∀ (dst src : Fin 4) (s t : State), exec (.encode dst src) s = .next t →
    t.status.err = none ∨ t.status.err = some .range) ∧
  (∀ (dst : Fin 4) (s t : State), exec (.retarget dst) s = .next t →
    t.status.err = none ∨ t.status.err = some .config ∨ t.status.err = some .epoch) ∧
  (∀ (w : Word) (s t : State), s.engine = .busy w → engineTurn s = .next t →
    (t.status.err = some .illegal ↔ ∃ e, decodeWord w = .error e)) ∧
  (∀ (a : Access) (s : State), (serve a s).status.err = s.status.err ∨ (serve a s).status.err = none)

/-- 60_exceptions.md section 1 (precision): a failed command has no effect but on the engine and STATUS. -/
def Obligations.FailedCommandsChangeOnlyStatus : Prop :=
  ∀ (i : Instr) (s t : State), exec i s = .next t → t.status.err ≠ none →
    t = { s with engine := .idle, status := { done := true, wdrop := s.status.wdrop, err := t.status.err } }

/-- R177: an illegal word is accepted at issue, and its commit changes only BUSY, DONE and ERR. -/
def Obligations.IllegalWordsCommitErrIllegal : Prop :=
  (∀ (s : State) (w : Word), s.engine = .idle → (hostWrite 0x000C w s).engine = .busy w) ∧
  ∀ (s : State) (w : Word) (e : DecodeError), s.engine = .busy w → decodeWord w = .error e →
    ∃ t, engineTurn s = .next t ∧ t.engine = .idle ∧ t.status.done = true ∧ errCode t.status.err = 1#4 ∧
      t.status.wdrop = s.status.wdrop ∧ t.flags = s.flags ∧ t.tg = s.tg ∧ t.cb = s.cb ∧
      sameWindowExcept ofNothing s t

/-! ## The window -/

/-- R63: the window's map, offset by offset; every offset not listed is reserved. -/
def Obligations.WindowMapOfTheSpec : Prop :=
  (windowReg 0x0000 = .id ∧ windowReg 0x0004 = .ctrl ∧ windowReg 0x0008 = .status ∧ windowReg 0x000C = .cmd ∧
    windowReg 0x0010 = .flags ∧ windowReg 0x0014 = .timespan ∧ windowReg 0x0018 = .epochLen) ∧
  (∀ i : Fin 4, windowReg (0x0020 + 4 * i.val) = .cb i) ∧
  (windowReg 0x0040 = .hdr .start .height ∧ windowReg 0x0044 = .hdr .start .bits ∧
    windowReg 0x0048 = .hdr .start .timeLo ∧ windowReg 0x004C = .hdr .start .timeHi) ∧
  (windowReg 0x0050 = .hdr .last .height ∧ windowReg 0x0054 = .hdr .last .bits ∧
    windowReg 0x0058 = .hdr .last .timeLo ∧ windowReg 0x005C = .hdr .last .timeHi) ∧
  (∀ i : Fin 4, windowReg (0x1000 + 0x200 * i.val) = .sign (.tg i) ∧
    ∀ k : Fin 64, windowReg (0x1100 + 0x200 * i.val + 4 * k.val) = .mag (.tg i) k) ∧
  (windowReg 0x1800 = .sign .powLimit ∧ ∀ k : Fin 64, windowReg (0x1900 + 4 * k.val) = .mag .powLimit k) ∧
  (∀ r : WindowReg, r ≠ .reserved →
    regOffset r % 4 = 0 ∧ regOffset r < 0x2000 ∧ windowReg (regOffset r) = r) ∧
  (∀ off : Nat, off % 4 = 0 → off < 0x2000 → windowReg off ≠ .reserved → regOffset (windowReg off) = off) ∧
  (∀ off : Nat, off % 4 = 0 → off < 0x2000 →
    (windowReg off = .reserved ↔
      off = 0x001C ∨ (0x0030 ≤ off ∧ off ≤ 0x003C) ∨ (0x0060 ≤ off ∧ off ≤ 0x0FFC) ∨
      (0x1000 ≤ off ∧ off ≤ 0x19FC ∧ 0x004 ≤ off % 0x200 ∧ off % 0x200 ≤ 0x0FC) ∨
      (0x1A00 ≤ off ∧ off ≤ 0x1FFC)))

/-- R61, with the read of 20_memory.md section 3: what the port serves; a served read answers the word the
register holds and changes nothing but the port's answer, a served write is the host write of its offset; and
what the port does not serve changes nothing. -/
def Obligations.OnlyAlignedWordsAreServed : Prop :=
  (∀ (off : Nat) (s : State), off % 4 = 0 → off < 0x2000 →
    serve (.read off .bits32) s = { s with port := some (.okRead (readOffset off s)) }) ∧
  (∀ (off : Nat) (v : Word) (s : State), off % 4 = 0 → off < 0x2000 →
    serve (.write off .bits32 v) s = { hostWrite off v s with port := some .okWrite }) ∧
  ∀ (a : Access) (s : State),
    ((accessWidth a = .bits32 ∧ accessOffset a % 4 = 0 ∧ accessOffset a < 0x2000) →
      (∃ v, (serve a s).port = some (.okRead v)) ∨ (serve a s).port = some .okWrite) ∧
    (¬ (accessWidth a = .bits32 ∧ accessOffset a % 4 = 0 ∧ accessOffset a < 0x2000) →
      serve a s = { s with port := some .busError })

/-- R64: reserved offsets and reserved bits read 0 and ignore writes, without a bus error; a write there while
Busy still sets WDROP. -/
def Obligations.ReservedReadsZeroIgnoresWrites : Prop :=
  (∀ (off : Nat) (s : State), off % 4 = 0 → off < 0x2000 → windowReg off = .reserved →
    (serve (.read off .bits32) s).port = some (.okRead 0#32) ∧
    ∀ v, (serve (.write off .bits32 v) s).port = some .okWrite ∧
      (s.engine = .idle → hostWrite off v s = s) ∧
      (∀ w, s.engine = .busy w → hostWrite off v s = { s with status := { s.status with wdrop := true } })) ∧
  (∀ s : State, readReg .ctrl s &&& 0xFFFFFFFC#32 = 0#32 ∧ readReg .status s &&& 0xFFFFF0F8#32 = 0#32 ∧
    readReg .flags s &&& 0xFFFFFC00#32 = 0#32 ∧ ∀ x, readReg (.sign x) s &&& 0xFFFFFFFE#32 = 0#32) ∧
  (∀ (s : State) (v v' : Word), s.engine = .idle →
    (v &&& 0x00000003#32 = v' &&& 0x00000003#32 → hostWriteReg .ctrl v s = hostWriteReg .ctrl v' s) ∧
    (v &&& 0x00000006#32 = v' &&& 0x00000006#32 → hostWriteReg .status v s = hostWriteReg .status v' s) ∧
    ∀ x, v &&& 0x00000001#32 = v' &&& 0x00000001#32 → hostWriteReg (.sign x) v s = hostWriteReg (.sign x) v' s) ∧
  (∀ (s : State) (v w : Word), s.engine = .busy w →
    (hostWriteReg .id v s).status.wdrop = true ∧ (hostWriteReg .flags v s).status.wdrop = true)

/-- R66: a write of a read/write register, while Idle, makes the next read return the value, less its reserved
bits. -/
def Obligations.WritesReadBack : Prop :=
  ∀ (s : State) (v : Word), s.engine = .idle →
    (∀ i, readReg (.cb i) (hostWriteReg (.cb i) v s) = v) ∧
    (∀ side field, readReg (.hdr side field) (hostWriteReg (.hdr side field) v s) = v) ∧
    readReg .timespan (hostWriteReg .timespan v s) = v ∧
    readReg .epochLen (hostWriteReg .epochLen v s) = v ∧
    (∀ x, readReg (.sign x) (hostWriteReg (.sign x) v s) = v &&& 1#32) ∧
    (∀ x k, readReg (.mag x k) (hostWriteReg (.mag x k) v s) = v) ∧
    readReg .ctrl (hostWriteReg .ctrl v s) = v &&& 0x3#32

/-- 20_memory.md section 3: a write, while Idle, of any word but CMD and STATUS changes no other word of the
window and nothing else of the machine: no two words alias. A write to ID, FLAGS or a reserved word changes
nothing at all. -/
def Obligations.WritesTouchOneWord : Prop :=
  ∀ (s : State) (r : WindowReg) (v : Word), s.engine = .idle → r ≠ .cmd → r ≠ .status →
    (∀ r', r' ≠ r → readReg r' (hostWriteReg r v s) = readReg r' s) ∧
    (hostWriteReg r v s).engine = .idle ∧ (hostWriteReg r v s).inputs = s.inputs ∧
    (hostWriteReg r v s).port = s.port ∧
    (r = .id ∨ r = .flags ∨ r = .reserved → hostWriteReg r v s = s)

/-- R22: ID reads its constant in every state, and a write to it is dropped without a bus error. -/
def Obligations.IdIsConstant : Prop :=
  ∀ (s : State) (v : Word),
    readOffset 0x0000 s = 0x43425831#32 ∧
    (serve (.write 0x0000 .bits32 v) s).port = some .okWrite ∧
    (s.engine = .idle → hostWrite 0x0000 v s = s) ∧
    (∀ w, s.engine = .busy w → hostWrite 0x0000 v s = { s with status := { s.status with wdrop := true } })

/-- 30_encoding.md section 3: the host's `wtarget`, while Idle, leaves its value in the register, whatever was
there, and changes no other register word; `rtarget` reads the value any register holds. -/
def Obligations.TargetWordsCarryTheValue : Prop :=
  (∀ (s : State) (x : TargetName) (v : Int), s.engine = .idle → v.natAbs < 2 ^ 2048 →
    let t := serveAll (expandLine (.wtarget (targetBase x) v)) s
    targetValue (readTarget x t) = v ∧ t.engine = .idle ∧ t.status = s.status ∧ t.flags = s.flags ∧
    ∀ r, r ≠ .sign x → (∀ k, r ≠ .mag x k) → readReg r t = readReg r s) ∧
  (∀ (s : State) (x : TargetName),
    valueOfWords (readOffset (targetBase x) s) ((magOffsets (targetBase x)).map fun off => readOffset off s) =
      targetValue (readTarget x s))

/-- 30_encoding.md section 3: the host's `wtime`, while Idle, leaves its timestamp in either header. -/
def Obligations.TimeWordsCarryTheTimestamp : Prop :=
  ∀ (s : State) (side : HeaderSide) (t : Int), s.engine = .idle → -(2 ^ 63) ≤ t → t ≤ 2 ^ 63 - 1 →
    headerTime (readHeader side (serveAll (expandLine (.wtime (headerOffset side .timeLo) t)) s)) = t

/-! ## The command's life -/

/-- R171: an issue accepts any word and changes nothing but CMD, BUSY, DONE and ERR. -/
def Obligations.IssueAcceptsAnyWord : Prop :=
  ∀ (s : State) (w : Word), s.engine = .idle →
    hostWrite 0x000C w s =
      { s with cmd := w, engine := .busy w, status := { done := false, wdrop := s.status.wdrop, err := none } } ∧
    (readOffset 0x0008 (hostWrite 0x000C w s)).getLsbD 0 = true

/-- R174: writes while Busy are dropped and set WDROP, but for STATUS; a bus error is no write. -/
def Obligations.WritesWhileBusyAreDropped : Prop :=
  ∀ (s : State) (w : Word) (off : Nat) (width : AccessWidth) (v : Word), s.engine = .busy w →
    (off % 4 = 0 → off < 0x2000 → off ≠ 0x0008 →
      accessEffect (.write off .bits32 v) s = { s with status := { s.status with wdrop := true } }) ∧
    accessEffect (.write 0x0008 .bits32 v) s =
      { s with status := { s.status with
          done := s.status.done && !v.getLsbD 1, wdrop := s.status.wdrop && !v.getLsbD 2 } } ∧
    (¬ (width = .bits32 ∧ off % 4 = 0 ∧ off < 0x2000) → accessEffect (.write off width v) s = s)

/-- 10_state.md section 2: a write to STATUS, Idle or Busy, clears DONE where its bit 1 is 1 and WDROP where its
bit 2 is 1, and changes nothing else: ERR, BUSY, the engine and every other word read as before. -/
def Obligations.StatusWritesClearDoneAndWdrop : Prop :=
  ∀ (s : State) (v : Word),
    let t := hostWrite 0x0008 v s
    serve (.write 0x0008 .bits32 v) s = { t with port := some .okWrite } ∧
    t = { s with status := { done := t.status.done, wdrop := t.status.wdrop, err := s.status.err } } ∧
    (v.getLsbD 1 = true → t.status.done = false) ∧ (v.getLsbD 1 = false → t.status.done = s.status.done) ∧
    (v.getLsbD 2 = true → t.status.wdrop = false) ∧ (v.getLsbD 2 = false → t.status.wdrop = s.status.wdrop) ∧
    (readReg .status t).extractLsb' 8 4 = (readReg .status s).extractLsb' 8 4 ∧
    (readReg .status t).getLsbD 0 = (readReg .status s).getLsbD 0 ∧
    ∀ r, r ≠ .status → readReg r t = readReg r s

/-- 20_memory.md section 3 and 60_exceptions.md section 2: a commit and a transaction in one cycle are ordered
commit first, so a write that clears DONE clears the DONE the commit set, while ERR, the destination and FLAGS
are the commit's; a read sees the whole commit. Cycles as `inputs` are the model's choice, log 1. -/
def Obligations.CommitComesBeforeSameCycleAccess : Prop :=
  ∀ (s : State) (w : Word) (i : Instr) (c : Cycle), s.engine = .busy w → decodeWord w = .ok i →
    nextCycle s = c → c.rst = false → c.commit = true →
    ∃ u, exec i (takeCycle s) = .next u ∧
      (∀ v, c.access = some (.write 0x0008 .bits32 v) →
        ∃ t, step s = .next t ∧ t.status.done = !v.getLsbD 1 ∧ t.status.err = u.status.err ∧ t.tg = u.tg ∧
          t.cb = u.cb ∧ t.flags = u.flags ∧ t.engine = .idle) ∧
      (∀ off, c.access = some (.read off .bits32) → off % 4 = 0 → off < 0x2000 →
        ∃ t, step s = .next t ∧ t.port = some (.okRead (readOffset off u)))

/-- 42_control.md section 2 (latency): the commit is never in the cycle of the issue. Cycles as `inputs` are the
model's choice, log 1. -/
def Obligations.IssueStaysBusyThatCycle : Prop :=
  ∀ (s : State) (w : Word), s.engine = .idle → (nextCycle s).rst = false →
    (nextCycle s).access = some (.write 0x000C .bits32 w) →
    ∃ t, step s = .next t ∧ t.engine = .busy w ∧ t.cmd = w ∧ t.port = some .okWrite

/-- R186: the interrupt output is a level, IRQ_EN and DONE; how it rises and falls. -/
def Obligations.IrqIsEnabledDone : Prop :=
  (∀ s : State, irq s = ((readOffset 0x0004 s).getLsbD 0 && (readOffset 0x0008 s).getLsbD 1)) ∧
  (∀ (i : Instr) (s t : State), exec i s = .next t → irq t = s.ctrl.irqEn) ∧
  (∀ s : State, irq (commitIllegal s) = s.ctrl.irqEn) ∧
  (∀ (s : State) (v : Word), s.engine = .idle → v.getLsbD 0 = true → irq (hostWrite 0x0004 v s) = s.status.done) ∧
  (∀ (s : State) (v : Word), v.getLsbD 1 = true → irq (hostWrite 0x0008 v s) = false) ∧
  (∀ (s : State) (v : Word), s.engine = .idle → irq (hostWrite 0x000C v s) = false) ∧
  (∀ (s : State) (v : Word), s.engine = .idle → v.getLsbD 0 = false → irq (hostWrite 0x0004 v s) = false) ∧
  (∀ (a : Option Access) (s : State), irq (resetCycle a s) = false) ∧
  (∀ s : State, irq { s with status := { s.status with wdrop := !s.status.wdrop } } = irq s)

/-- 10_state.md sections 2 and 6: the bit positions of CTRL, STATUS and FLAGS as the host reads them. -/
def Obligations.HostVisibleBitPositions : Prop :=
  ∀ s : State,
    (readReg .ctrl s).toNat = s.ctrl.irqEn.toNat + 2 * s.ctrl.strictEpoch.toNat ∧
    (readReg .status s).toNat =
      (busy s).toNat + 2 * s.status.done.toNat + 4 * s.status.wdrop.toNat + 2 ^ 8 * (errCode s.status.err).toNat ∧
    (readReg .flags s).toNat =
      s.flags.zero.toNat + 2 * s.flags.neg.toNat + 2 ^ 2 * s.flags.signIn.toNat + 2 ^ 3 * s.flags.ovf.toNat +
      2 ^ 4 * s.flags.lossy.toNat + 2 ^ 5 * s.flags.due.toNat + 2 ^ 6 * s.flags.spanLo.toNat +
      2 ^ 7 * s.flags.spanHi.toNat + 2 ^ 8 * s.flags.ceil.toNat + 2 ^ 9 * s.flags.epochMismatch.toNat

/-! ## Whole runs -/

/-- The invariant holds right after reset. -/
def Obligations.InvariantAtReset : Prop :=
  Inv State.reset

/-- Every step keeps the invariant, whatever the environment presents: the word in flight is what CMD reads,
DONE and ERR are 0 while Busy, and FLAGS is one a command can leave. -/
def Obligations.EveryStepKeepsInvariant : Prop :=
  ∀ s t : State, Inv s → step s = .next t → Inv t

/-- 42_control.md section 2: the outcome is fixed at issue. Whatever transactions the host makes while the
engine is Busy, and however long it stays so, the commit leaves what an immediate commit leaves, but for WDROP
and the port's last answer. Cycles as `inputs` are the model's choice, log 1. -/
def Obligations.OutcomeIsFixedAtIssue : Prop :=
  ∀ (s : State) (w : Word) (cs rest : List Cycle), s.engine = .busy w →
    s.inputs = cs ++ quietCycle :: rest → (∀ c ∈ cs, waits c) →
    ∃ t u, run (cs.length + 1) s = .next t ∧ step { s with inputs := quietCycle :: rest } = .next u ∧
      apartFromPort t = apartFromPort u

/-- 42_control.md section 2: commands issued one after another, each after the commit of the one before, leave
the registers that applying the commands' functions in that order leaves. The cycles of `issueThenCommit` are
the model's choice, log 1. -/
def Obligations.SequentialCommandsCompose : Prop :=
  ∀ (is : List Instr) (s : State) (rest : List Cycle), s.engine = .idle →
    s.inputs = is.flatMap issueThenCommit ++ rest →
    ∃ t, run (2 * is.length) s = .next t ∧ t.engine = .idle ∧ t.inputs = rest ∧
      sameOperands t (applyCommands is s) ∧ t.flags = (applyCommands is s).flags

/-- 42_control.md section 2 and 70_reset_and_hazards.md section 4: every run ends. `endState` is the state after
some number of steps, the least at which the host has made its last transaction and the engine is Idle, and at
most one step more than the cycles presented; after that many steps no cycle is left and the run is over. Once
over it stays over, with every register unchanged as long as no cycle asserts `rst`. It rests on the model's
finite `inputs` and their fairness, log 1. -/
def Obligations.EveryRunEnds : Prop :=
  (∀ s : State, ∃ n t, n ≤ s.inputs.length + 1 ∧ endState s = .next t ∧ run n s = .next t ∧ runOver t ∧
    ∀ m < n, ∃ u, run m s = .next u ∧ ¬ runOver u) ∧
  (∀ s : State, ∃ t, run (s.inputs.length + 1) s = .next t ∧ t.inputs = [] ∧ runOver t) ∧
  (∀ s : State, runOver s → ∀ n, ∃ t, run n s = .next t ∧ runOver t) ∧
  (∀ s : State, runOver s → (∀ c ∈ s.inputs, noReset c) → ∀ n, ∃ t, run n s = .next t ∧ runOver t ∧
    ∀ r, readReg r t = readReg r s)
end

