-- ==== Sys2Proof/Laws/CompactBits.lean ====
section
/-!
SUPPORT. Laws of the codec's pure functions: lengths (R12), the fields of a packed word (R110), Decode as
arithmetic (R112) and the cases of Encode (R120).
-/

namespace Sys2Proof.Laws

open Sys2Proof.Machine

/-! ## Lengths -/

theorem bitlen_le_iff (a k : Nat) : bitlen a ≤ k ↔ a < 2 ^ k := by
  unfold bitlen
  split
  · rename_i h; subst h; simp
  · rename_i h; rw [← Nat.log2_lt h]; omega

theorem lt_two_pow_bitlen (a : Nat) : a < 2 ^ bitlen a :=
  (bitlen_le_iff a _).1 le_rfl

theorem bytelen_le_iff (a k : Nat) : bytelen a ≤ k ↔ a < 2 ^ (8 * k) := by
  rw [← bitlen_le_iff]; unfold bytelen; omega

theorem lt_of_bytelen (a : Nat) : a < 2 ^ (8 * bytelen a) :=
  (bytelen_le_iff a _).1 le_rfl

theorem bytelen_pos {a : Nat} (h : a ≠ 0) : 1 ≤ bytelen a := by
  by_contra hc
  have := (bytelen_le_iff a 0).1 (by omega)
  simp at this; exact h this

theorem le_of_bytelen {a : Nat} (h : a ≠ 0) : 2 ^ (8 * (bytelen a - 1)) ≤ a := by
  have hp := bytelen_pos h
  by_contra hc
  have := (bytelen_le_iff a (bytelen a - 1)).2 (by omega)
  omega

/-! ## The mantissa before the correction -/

theorem rawMantissa_of_le {a e : Nat} (h : e ≤ 3) : rawMantissa a e = a * 2 ^ (8 * (3 - e)) := by
  simp [rawMantissa, h, Nat.shiftLeft_eq]

theorem rawMantissa_of_gt {a e : Nat} (h : 3 < e) : rawMantissa a e = a / 2 ^ (8 * (e - 3)) := by
  simp [rawMantissa, Nat.not_le.2 h, Nat.shiftRight_eq_div_pow]

/-- The bound of R122: the mantissa has at most 24 bits. -/
theorem rawMantissa_lt (a : Nat) : rawMantissa a (bytelen a) < 2 ^ 24 := by
  have hlt := lt_of_bytelen a
  rcases Nat.lt_or_ge 3 (bytelen a) with h | h
  · rw [rawMantissa_of_gt h]
    apply Nat.div_lt_of_lt_mul
    rw [← Nat.pow_add]
    have : 8 * (bytelen a - 3) + 24 = 8 * bytelen a := by omega
    rwa [this]
  · rw [rawMantissa_of_le h]
    calc a * 2 ^ (8 * (3 - bytelen a)) < 2 ^ (8 * bytelen a) * 2 ^ (8 * (3 - bytelen a)) :=
          Nat.mul_lt_mul_of_pos_right hlt (by positivity)
      _ = 2 ^ 24 := by
        rw [← Nat.pow_add]; congr 1; omega

/-- The mantissa of a nonzero magnitude has its top byte nonzero (R122). -/
theorem rawMantissa_ge {a : Nat} (ha : a ≠ 0) : 2 ^ 16 ≤ rawMantissa a (bytelen a) := by
  have hge := le_of_bytelen ha
  have hp := bytelen_pos ha
  rcases Nat.lt_or_ge 3 (bytelen a) with h | h
  · rw [rawMantissa_of_gt h, Nat.le_div_iff_mul_le (by positivity), ← Nat.pow_add]
    have : 16 + 8 * (bytelen a - 3) = 8 * (bytelen a - 1) := by omega
    rwa [this]
  · rw [rawMantissa_of_le h]
    calc 2 ^ 16 = 2 ^ (8 * (bytelen a - 1)) * 2 ^ (8 * (3 - bytelen a)) := by
          rw [← Nat.pow_add]; congr 1; omega
      _ ≤ _ := Nat.mul_le_mul_right _ hge

/-- Step 5's test on a 24-bit mantissa (R120). -/
theorem testBit_23_iff {m : Nat} (h : m < 2 ^ 24) : m.testBit 23 = true ↔ 2 ^ 23 ≤ m := by
  constructor
  · exact Nat.ge_two_pow_of_testBit
  · intro hg
    rw [Nat.testBit_eq_decide_div_mod_eq]
    simp only [decide_eq_true_eq]
    omega

/-! ## The fields of a word, as numbers -/

theorem compactMantissa_eq (c : Word) : compactMantissa c = c.toNat % 2 ^ 23 := by
  simp [compactMantissa]

theorem compactExponent_eq (c : Word) : compactExponent c = c.toNat / 2 ^ 24 := by
  have := c.isLt
  simp only [compactExponent, BitVec.extractLsb'_toNat, Nat.shiftRight_eq_div_pow]
  omega

theorem compactSign_eq (c : Word) : compactSign c = decide (c.toNat / 2 ^ 23 % 2 = 1) := by
  rw [compactSign, BitVec.getLsbD, Nat.testBit_eq_decide_div_mod_eq]

theorem compactMantissa_lt (c : Word) : compactMantissa c < 2 ^ 23 := by
  rw [compactMantissa_eq]; omega

theorem compactExponent_lt (c : Word) : compactExponent c < 256 := by
  have := c.isLt
  rw [compactExponent_eq]; omega

/-! ## Packing -/

theorem packCompact_toNat {neg : Bool} {e m : Nat} (he : e < 256) (hm : m < 2 ^ 23) :
    (packCompact neg e m).toNat = e * 2 ^ 24 + (if neg then 2 ^ 23 else 0) + m := by
  have h1 : (e <<< 24 ||| m) = e * 2 ^ 24 + m := by
    rw [← Nat.shiftLeft_add_eq_or_of_lt (by omega), Nat.shiftLeft_eq]
  cases neg
  · simp only [packCompact, h1]
    simp only [Bool.false_eq_true, if_false]
    rw [BitVec.toNat_ofNat]; omega
  · simp only [packCompact, h1, if_true, BitVec.toNat_or, BitVec.toNat_ofNat]
    have h2 : (e * 2 ^ 24 + m) % 2 ^ 32 = (2 * e) <<< 23 ||| m := by
      rw [← Nat.shiftLeft_add_eq_or_of_lt hm, Nat.shiftLeft_eq]; omega
    have h3 : 8388608 % 2 ^ 32 = 1 <<< 23 := by decide
    rw [h2, h3, Nat.or_assoc, Nat.or_comm m, ← Nat.or_assoc, ← Nat.shiftLeft_or_distrib]
    have h4 : 2 * e ||| 1 = 2 * e + 1 := by
      have := Nat.shiftLeft_add_eq_or_of_lt (b := 1) (i := 1) (by decide) e
      rw [Nat.shiftLeft_eq] at this
      rw [Nat.mul_comm 2 e]; simpa using this.symm
    rw [h4, ← Nat.shiftLeft_add_eq_or_of_lt hm, Nat.shiftLeft_eq]; omega

theorem compactExponent_pack {neg : Bool} {e m : Nat} (he : e < 256) (hm : m < 2 ^ 23) :
    compactExponent (packCompact neg e m) = e := by
  rw [compactExponent_eq, packCompact_toNat he hm]; cases neg <;> simp <;> omega

theorem compactMantissa_pack {neg : Bool} {e m : Nat} (he : e < 256) (hm : m < 2 ^ 23) :
    compactMantissa (packCompact neg e m) = m := by
  rw [compactMantissa_eq, packCompact_toNat he hm]; cases neg <;> simp <;> omega

theorem compactSign_pack {neg : Bool} {e m : Nat} (he : e < 256) (hm : m < 2 ^ 23) :
    compactSign (packCompact neg e m) = neg := by
  rw [compactSign_eq, packCompact_toNat he hm]; cases neg <;> simp <;> omega

/-! ## Decode -/

/-- The magnitude as division or multiplication (R112). -/
theorem decodeMagnitude_eq (e m : Nat) :
    decodeMagnitude e m = if e ≤ 3 then m / 2 ^ (8 * (3 - e)) else m * 2 ^ (8 * (e - 3)) := by
  unfold decodeMagnitude
  split
  · rw [Nat.shiftRight_eq_div_pow]
  · rw [Nat.shiftLeft_eq]

theorem natAbs_compactDecode (c : Word) :
    (compactDecode c).natAbs = decodeMagnitude (compactExponent c) (compactMantissa c) := by
  unfold compactDecode
  cases compactSign c <;> simp

theorem compactDecode_eq (c : Word) :
    compactDecode c = (if compactSign c then -1 else 1) *
      (decodeMagnitude (compactExponent c) (compactMantissa c) : Int) := by
  unfold compactDecode
  cases compactSign c <;> simp

/-- R115's bound. -/
theorem natAbs_compactDecode_le (c : Word) : (compactDecode c).natAbs ≤ 0x7FFFFF * 2 ^ 2016 := by
  rw [natAbs_compactDecode, decodeMagnitude_eq]
  have hm := compactMantissa_lt c
  have he := compactExponent_lt c
  split
  · calc _ ≤ compactMantissa c := Nat.div_le_self _ _
      _ ≤ 0x7FFFFF * 1 := by omega
      _ ≤ _ := Nat.mul_le_mul_left _ Nat.one_le_two_pow
  · exact Nat.mul_le_mul (by omega) (Nat.pow_le_pow_right (by decide) (by omega))

theorem two_pow_split (a b : Nat) : (2 : Nat) ^ (a + b) = 2 ^ a * 2 ^ b := Nat.pow_add 2 a b

theorem natAbs_compactDecode_lt (c : Word) : (compactDecode c).natAbs < 2 ^ 2039 := by
  have h := natAbs_compactDecode_le c
  have h2 : (2 : Nat) ^ 2039 = 2 ^ 23 * 2 ^ 2016 := two_pow_split 23 2016
  have h3 : 0 < (2 : Nat) ^ 2016 := Nat.two_pow_pos _
  rw [h2]
  calc _ ≤ _ := h
    _ < _ := Nat.mul_lt_mul_of_pos_right (by decide) h3

/-! ## Encode -/

theorem compactEncode_zero : compactEncode 0 = .word 0#32 false := rfl

/-- Encode of a nonzero value whose mantissa takes no correction (R120). -/
theorem compactEncode_plain {v : Int} (hv : v ≠ 0)
    (hm : rawMantissa v.natAbs (bytelen v.natAbs) < 2 ^ 23) :
    compactEncode v = if 255 < bytelen v.natAbs then .range
      else .word (packCompact (decide (v < 0)) (bytelen v.natAbs)
        (rawMantissa v.natAbs (bytelen v.natAbs))) false := by
  have h : (rawMantissa v.natAbs (bytelen v.natAbs)).testBit 23 = false := by
    rw [Bool.eq_false_iff, ne_eq, testBit_23_iff (by omega)]; omega
  simp [compactEncode, hv, h]

/-- Encode of a nonzero value whose mantissa takes the correction (R120 step 5). -/
theorem compactEncode_corrected {v : Int} (hv : v ≠ 0)
    (hm : 2 ^ 23 ≤ rawMantissa v.natAbs (bytelen v.natAbs)) :
    compactEncode v = if 255 < bytelen v.natAbs + 1 then .range
      else .word (packCompact (decide (v < 0)) (bytelen v.natAbs + 1)
        (rawMantissa v.natAbs (bytelen v.natAbs) / 256)) true := by
  have h := (testBit_23_iff (rawMantissa_lt v.natAbs)).2 hm
  simp [compactEncode, hv, h, Nat.shiftRight_eq_div_pow]

/-- All that Encode can do (R120): zero; RANGE; a word without the correction; a word with it. -/
theorem compactEncode_cases (v : Int) :
    (v = 0 ∧ compactEncode v = .word 0#32 false) ∨
    (v ≠ 0 ∧ compactEncode v = .range ∧
      (255 < bytelen v.natAbs ∨
        (bytelen v.natAbs = 255 ∧ 2 ^ 23 ≤ rawMantissa v.natAbs (bytelen v.natAbs)))) ∨
    (v ≠ 0 ∧ bytelen v.natAbs ≤ 255 ∧ rawMantissa v.natAbs (bytelen v.natAbs) < 2 ^ 23 ∧
      compactEncode v = .word (packCompact (decide (v < 0)) (bytelen v.natAbs)
        (rawMantissa v.natAbs (bytelen v.natAbs))) false) ∨
    (v ≠ 0 ∧ bytelen v.natAbs + 1 ≤ 255 ∧ 2 ^ 23 ≤ rawMantissa v.natAbs (bytelen v.natAbs) ∧
      compactEncode v = .word (packCompact (decide (v < 0)) (bytelen v.natAbs + 1)
        (rawMantissa v.natAbs (bytelen v.natAbs) / 256)) true) := by
  by_cases hv : v = 0
  · left; subst hv; exact ⟨rfl, rfl⟩
  · right
    rcases Nat.lt_or_ge (rawMantissa v.natAbs (bytelen v.natAbs)) (2 ^ 23) with hm | hm
    · rw [compactEncode_plain hv hm]
      split
      · left; exact ⟨hv, rfl, by omega⟩
      · right; left; exact ⟨hv, by omega, hm, rfl⟩
    · rw [compactEncode_corrected hv hm]
      split
      · left; exact ⟨hv, rfl, by omega⟩
      · right; right; exact ⟨hv, by omega, hm, rfl⟩

/-- What is known of a word Encode packed (R120, R122). -/
theorem encodedWord_fields {v : Int} {w : Word} {ovf : Bool} (hv : v ≠ 0) (h : compactEncode v = .word w ovf) :
    ∃ e m, w = packCompact (decide (v < 0)) e m ∧ e = bytelen v.natAbs + (if ovf then 1 else 0) ∧ e ≤ 255 ∧
      m = (if ovf then rawMantissa v.natAbs (bytelen v.natAbs) / 256
        else rawMantissa v.natAbs (bytelen v.natAbs)) ∧ m < 2 ^ 23 ∧
      (ovf = false → rawMantissa v.natAbs (bytelen v.natAbs) < 2 ^ 23) ∧
      (ovf = true → 2 ^ 23 ≤ rawMantissa v.natAbs (bytelen v.natAbs)) := by
  have hl := rawMantissa_lt v.natAbs
  rcases compactEncode_cases v with ⟨h0, _⟩ | ⟨_, h1, _⟩ | ⟨_, hb, hm, h1⟩ | ⟨_, hb, hm, h1⟩
  · exact absurd h0 hv
  · rw [h1] at h; cases h
  · rw [h1] at h; cases h
    exact ⟨_, _, rfl, by simp, hb, by simp, hm, fun _ => hm, by simp⟩
  · rw [h1] at h; cases h
    exact ⟨_, _, rfl, by simp, hb, by simp, by omega, by simp, fun _ => hm⟩

/-- Decoding the mantissa before the correction truncates the magnitude (R123). -/
theorem decodeMagnitude_rawMantissa {a e : Nat} :
    decodeMagnitude e (rawMantissa a e) = a / 2 ^ (8 * (e - 3)) * 2 ^ (8 * (e - 3)) := by
  rw [decodeMagnitude_eq]
  split
  · rename_i h
    rw [rawMantissa_of_le h, Nat.sub_eq_zero_of_le h]
    rw [Nat.mul_div_cancel _ (by positivity)]; simp
  · rename_i h
    rw [rawMantissa_of_gt (by omega)]

/-- Decoding the corrected mantissa truncates the magnitude (R123). -/
theorem decodeMagnitude_corrected {a e : Nat} (h : 2 ^ 23 ≤ rawMantissa a e) :
    decodeMagnitude (e+1) (rawMantissa a e / 256) = a / 2 ^ (8 * (e + 1 - 3)) * 2 ^ (8 * (e + 1 - 3)) := by
  rw [decodeMagnitude_eq]
  split
  · rename_i h'
    rw [rawMantissa_of_le (by omega), Nat.sub_eq_zero_of_le h']
    have : 2 ^ (8 * (3 - e)) = 256 * 2 ^ (8 * (3 - (e+1))) := by
      rw [show (256:ℕ) = 2^8 by rfl, ← Nat.pow_add]; congr 1; omega
    rw [this, ← Nat.mul_assoc, Nat.mul_comm a 256, Nat.mul_assoc, Nat.mul_div_cancel_left _ (by decide),
      Nat.mul_div_cancel _ (by positivity)]; simp
  · rename_i h'
    congr 1
    rcases Nat.lt_or_ge 3 e with h3 | h3
    · rw [rawMantissa_of_gt h3, Nat.div_div_eq_div_mul, show (256:ℕ) = 2^8 by rfl, ← Nat.pow_add]; congr 2; omega
    · have : e = 3 := by omega
      subst this
      rw [rawMantissa_of_le (by omega)]; simp

/-- The correction at 255 bytes falls exactly at 2^2039 (R125). -/
theorem rawMantissa_255_ge_iff (a : Nat) : 2 ^ 23 ≤ rawMantissa a 255 ↔ 2 ^ 2039 ≤ a := by
  rw [rawMantissa_of_gt (by decide), Nat.le_div_iff_mul_le (by positivity), ← Nat.pow_add]

/-- A negative result has the sign bit (R118). -/
theorem signBit_of_compactDecode_neg (c : Word) (h : compactDecode c < 0) : c.getLsbD 23 = true := by
  by_contra hc
  have := compactDecode_eq c
  simp only [compactSign, hc] at this
  simp at this; omega

end Sys2Proof.Laws
end

