-- ==== Sys2Proof/Laws/Decode.lean ====
section
/-!
SUPPORT. The fields of a command word as numbers (R90), the word of given fields, and all that the decoder can
answer (R91, R93, R96).
-/

namespace Sys2Proof.Laws

theorem opField_toNat (w : Word) : (opField w).toNat = w.toNat % 2 ^ 8 := by simp [opField]

theorem dField_val (w : Word) : (dField w).val = w.toNat / 2 ^ 8 % 2 ^ 2 := by
  simp [dField, Nat.shiftRight_eq_div_pow]

theorem lowReserved_toNat (w : Word) : (lowReserved w).toNat = w.toNat / 2 ^ 10 % 2 ^ 2 := by
  simp [lowReserved, Nat.shiftRight_eq_div_pow]

theorem sField_val (w : Word) : (sField w).val = w.toNat / 2 ^ 12 % 2 ^ 2 := by
  simp [sField, Nat.shiftRight_eq_div_pow]

theorem highReserved_toNat (w : Word) : (highReserved w).toNat = w.toNat / 2 ^ 14 := by
  have := w.isLt
  simp only [highReserved, BitVec.extractLsb'_toNat, Nat.shiftRight_eq_div_pow]
  omega

/-- A word's number is the number of its fields (R90). -/
theorem word_of_fields (w : Word) :
    w.toNat = (highReserved w).toNat * 2 ^ 14 + (sField w).val * 2 ^ 12 + (lowReserved w).toNat * 2 ^ 10 +
      (dField w).val * 2 ^ 8 + (opField w).toNat := by
  rw [opField_toNat, dField_val, lowReserved_toNat, sField_val, highReserved_toNat]; omega

theorem commandWord_toNat (op : BitVec 8) (d s : Fin 4) :
    (commandWord op d s).toNat = s.val * 2 ^ 12 + d.val * 2 ^ 8 + op.toNat := by
  have h1 := op.isLt
  have h2 := d.isLt
  have h3 := s.isLt
  simp only [commandWord, BitVec.toNat_append, BitVec.toNat_ofFin, BitVec.toNat_ofNat]
  rw [← Nat.shiftLeft_add_eq_or_of_lt h1, ← Nat.shiftLeft_add_eq_or_of_lt (i := 2) (by omega),
    ← Nat.shiftLeft_add_eq_or_of_lt (i := 2) (by decide), ← Nat.shiftLeft_add_eq_or_of_lt (i := 2) (by omega)]
  simp only [Nat.shiftLeft_eq]; omega

theorem reservedClear_iff (w : Word) :
    reservedClear w = true ↔ (lowReserved w).toNat = 0 ∧ (highReserved w).toNat = 0 := by
  simp [reservedClear, ← BitVec.toNat_inj]

/-- A word with its must-be-zero fields 0 is the word of its OP, D and S (R90, R93). -/
theorem eq_commandWord_iff (w : Word) (op : BitVec 8) (d s : Fin 4) :
    w = commandWord op d s ↔
      opField w = op ∧ dField w = d ∧ sField w = s ∧ reservedClear w = true := by
  have hw := word_of_fields w
  have h1 := opField_toNat w
  have h2 := dField_val w
  have h3 := lowReserved_toNat w
  have h4 := sField_val w
  have h5 := highReserved_toNat w
  have hop := op.isLt
  have hd := d.isLt
  have hs := s.isLt
  rw [reservedClear_iff, ← BitVec.toNat_inj, commandWord_toNat, ← BitVec.toNat_inj, Fin.ext_iff, Fin.ext_iff]
  constructor
  · intro h; omega
  · rintro ⟨a, b, c, e, f⟩
    rw [hw, a, b, c, e, f]; ring

/-- All that the decoder can answer (R91, R93, R96). -/
theorem decodeWord_cases (w : Word) :
    (opField w = 0x00#8 ∧ reservedClear w = true ∧ dField w = 0 ∧ sField w = 0 ∧ decodeWord w = .ok .nop) ∨
    (opField w = 0x01#8 ∧ reservedClear w = true ∧ decodeWord w = .ok (.decode (dField w) (sField w))) ∨
    (opField w = 0x02#8 ∧ reservedClear w = true ∧ decodeWord w = .ok (.encode (dField w) (sField w))) ∨
    (opField w = 0x03#8 ∧ reservedClear w = true ∧ sField w = 0 ∧ decodeWord w = .ok (.retarget (dField w))) ∨
    ((opField w).toNat < 4 ∧
      (reservedClear w = false ∨ (opField w = 0x00#8 ∧ (dField w ≠ 0 ∨ sField w ≠ 0)) ∨
        (opField w = 0x03#8 ∧ sField w ≠ 0)) ∧
      decodeWord w = .error .mustBeZero) ∨
    (4 ≤ (opField w).toNat ∧ decodeWord w = .error .reservedOpcode) := by
  by_cases h0 : opField w = 0x00#8
  · cases hr : reservedClear w
    · simp [decodeWord, h0, hr]
    · by_cases hd : dField w = 0 <;> by_cases hs : sField w = 0 <;> simp [decodeWord, h0, hr, hd, hs]
  by_cases h1 : opField w = 0x01#8
  · cases hr : reservedClear w <;> simp [decodeWord, h1, hr]
  by_cases h2 : opField w = 0x02#8
  · cases hr : reservedClear w <;> simp [decodeWord, h2, hr]
  by_cases h3 : opField w = 0x03#8
  · cases hr : reservedClear w
    · simp [decodeWord, h3, hr]
    · by_cases hs : sField w = 0 <;> simp [decodeWord, h3, hr, hs]
  have h4 : 4 ≤ (opField w).toNat := by
    rw [← BitVec.toNat_inj] at h0 h1 h2 h3
    simp only [BitVec.toNat_ofNat] at h0 h1 h2 h3
    omega
  simp [decodeWord, h0, h1, h2, h3, h4]

/-- The four lanes of a word make the word again (R62). -/
theorem wordOfLanes_lanes (w : Word) :
    wordOfLanes (w.extractLsb' 0 8) (w.extractLsb' 8 8) (w.extractLsb' 16 8) (w.extractLsb' 24 8) = w := by
  rw [← BitVec.toNat_inj]
  have hw := w.isLt
  simp only [wordOfLanes, BitVec.toNat_append, BitVec.extractLsb'_toNat, Nat.shiftRight_eq_div_pow]
  rw [← Nat.shiftLeft_add_eq_or_of_lt (i := 8) (by omega), ← Nat.shiftLeft_add_eq_or_of_lt (i := 8) (by omega),
    ← Nat.shiftLeft_add_eq_or_of_lt (i := 8) (by omega)]
  simp only [Nat.shiftLeft_eq]; omega

/-- A word under the mask of rows 1 and 2 of the opcode table (R95). -/
theorem toNat_and_twoFieldMask (w : Word) :
    (w &&& 0xFFFFCCFF#32).toNat =
      (highReserved w).toNat * 2 ^ 14 + (lowReserved w).toNat * 2 ^ 10 + (opField w).toNat := by
  have h : w &&& 0xFFFFCCFF#32 = (highReserved w ++ 0#2 ++ lowReserved w ++ 0#2 ++ opField w : BitVec 32) := by
    apply BitVec.eq_of_getLsbD_eq
    intro i hi
    interval_cases i <;> (rw [BitVec.getLsbD_and]; repeat rw [BitVec.getLsbD_append]) <;>
      simp [highReserved, lowReserved, opField]
  rw [h]
  have h1 := (opField w).isLt
  have h2 := (lowReserved w).isLt
  have h3 := (highReserved w).isLt
  simp only [BitVec.toNat_append, BitVec.toNat_ofNat]
  rw [← Nat.shiftLeft_add_eq_or_of_lt h1, ← Nat.shiftLeft_add_eq_or_of_lt (i := 2) (by decide),
    ← Nat.shiftLeft_add_eq_or_of_lt (i := 2) h2, ← Nat.shiftLeft_add_eq_or_of_lt (i := 2) (by decide)]
  simp only [Nat.shiftLeft_eq]; omega

/-- A word under the mask of row 3 of the opcode table (R95). -/
theorem toNat_and_oneFieldMask (w : Word) :
    (w &&& 0xFFFFFCFF#32).toNat =
      (highReserved w).toNat * 2 ^ 14 + (sField w).val * 2 ^ 12 + (lowReserved w).toNat * 2 ^ 10 +
        (opField w).toNat := by
  have h : w &&& 0xFFFFFCFF#32 =
      (highReserved w ++ (w.extractLsb' 12 2) ++ lowReserved w ++ 0#2 ++ opField w : BitVec 32) := by
    apply BitVec.eq_of_getLsbD_eq
    intro i hi
    interval_cases i <;> (rw [BitVec.getLsbD_and]; repeat rw [BitVec.getLsbD_append]) <;>
      simp [highReserved, lowReserved, opField]
  have hs : (sField w).val = (w.extractLsb' 12 2).toNat := rfl
  rw [h, hs]
  have h1 := (opField w).isLt
  have h2 := (lowReserved w).isLt
  have h3 := (highReserved w).isLt
  have h4 := (w.extractLsb' 12 2).isLt
  simp only [BitVec.toNat_append, BitVec.toNat_ofNat]
  rw [← Nat.shiftLeft_add_eq_or_of_lt h1, ← Nat.shiftLeft_add_eq_or_of_lt (i := 2) (by decide),
    ← Nat.shiftLeft_add_eq_or_of_lt (i := 2) h2, ← Nat.shiftLeft_add_eq_or_of_lt (i := 2) h4]
  simp only [Nat.shiftLeft_eq]; omega

end Sys2Proof.Laws
end

