-- ==== Sys2Proof/Laws/State.lean ====
section
/-!
SUPPORT. One lemma per field per update of State, each true by `rfl`.
-/

namespace Sys2Proof.Laws

open Sys2Proof.Machine

/-! ## `writeTg` -/

@[simp] theorem writeTg_ctrl (i : Fin 4) (x : Target) (s : State) : (writeTg i x s).ctrl = s.ctrl := rfl
@[simp] theorem writeTg_status (i : Fin 4) (x : Target) (s : State) : (writeTg i x s).status = s.status := rfl
@[simp] theorem writeTg_cmd (i : Fin 4) (x : Target) (s : State) : (writeTg i x s).cmd = s.cmd := rfl
@[simp] theorem writeTg_flags (i : Fin 4) (x : Target) (s : State) : (writeTg i x s).flags = s.flags := rfl
@[simp] theorem writeTg_timespan (i : Fin 4) (x : Target) (s : State) : (writeTg i x s).timespan = s.timespan := rfl
@[simp] theorem writeTg_epochLen (i : Fin 4) (x : Target) (s : State) : (writeTg i x s).epochLen = s.epochLen := rfl
@[simp] theorem writeTg_cb (i : Fin 4) (x : Target) (s : State) : (writeTg i x s).cb = s.cb := rfl
@[simp] theorem writeTg_hdrS (i : Fin 4) (x : Target) (s : State) : (writeTg i x s).hdrS = s.hdrS := rfl
@[simp] theorem writeTg_hdrE (i : Fin 4) (x : Target) (s : State) : (writeTg i x s).hdrE = s.hdrE := rfl
@[simp] theorem writeTg_tg (i : Fin 4) (x : Target) (s : State) : (writeTg i x s).tg = s.tg.set i.val x i.isLt := rfl
@[simp] theorem writeTg_powLimit (i : Fin 4) (x : Target) (s : State) : (writeTg i x s).powLimit = s.powLimit := rfl
@[simp] theorem writeTg_engine (i : Fin 4) (x : Target) (s : State) : (writeTg i x s).engine = s.engine := rfl
@[simp] theorem writeTg_inputs (i : Fin 4) (x : Target) (s : State) : (writeTg i x s).inputs = s.inputs := rfl
@[simp] theorem writeTg_port (i : Fin 4) (x : Target) (s : State) : (writeTg i x s).port = s.port := rfl

/-! ## `writeCb` -/

@[simp] theorem writeCb_ctrl (i : Fin 4) (w : Word) (s : State) : (writeCb i w s).ctrl = s.ctrl := rfl
@[simp] theorem writeCb_status (i : Fin 4) (w : Word) (s : State) : (writeCb i w s).status = s.status := rfl
@[simp] theorem writeCb_cmd (i : Fin 4) (w : Word) (s : State) : (writeCb i w s).cmd = s.cmd := rfl
@[simp] theorem writeCb_flags (i : Fin 4) (w : Word) (s : State) : (writeCb i w s).flags = s.flags := rfl
@[simp] theorem writeCb_timespan (i : Fin 4) (w : Word) (s : State) : (writeCb i w s).timespan = s.timespan := rfl
@[simp] theorem writeCb_epochLen (i : Fin 4) (w : Word) (s : State) : (writeCb i w s).epochLen = s.epochLen := rfl
@[simp] theorem writeCb_cb (i : Fin 4) (w : Word) (s : State) : (writeCb i w s).cb = s.cb.set i.val w i.isLt := rfl
@[simp] theorem writeCb_hdrS (i : Fin 4) (w : Word) (s : State) : (writeCb i w s).hdrS = s.hdrS := rfl
@[simp] theorem writeCb_hdrE (i : Fin 4) (w : Word) (s : State) : (writeCb i w s).hdrE = s.hdrE := rfl
@[simp] theorem writeCb_tg (i : Fin 4) (w : Word) (s : State) : (writeCb i w s).tg = s.tg := rfl
@[simp] theorem writeCb_powLimit (i : Fin 4) (w : Word) (s : State) : (writeCb i w s).powLimit = s.powLimit := rfl
@[simp] theorem writeCb_engine (i : Fin 4) (w : Word) (s : State) : (writeCb i w s).engine = s.engine := rfl
@[simp] theorem writeCb_inputs (i : Fin 4) (w : Word) (s : State) : (writeCb i w s).inputs = s.inputs := rfl
@[simp] theorem writeCb_port (i : Fin 4) (w : Word) (s : State) : (writeCb i w s).port = s.port := rfl

/-! ## `clearStatus` -/

@[simp] theorem clearStatus_ctrl (v : Word) (s : State) : (clearStatus v s).ctrl = s.ctrl := rfl
@[simp] theorem clearStatus_status (v : Word) (s : State) :
    (clearStatus v s).status = { s.status with done := s.status.done && !v.getLsbD 1, wdrop := s.status.wdrop && !v.getLsbD 2 } := rfl
@[simp] theorem clearStatus_cmd (v : Word) (s : State) : (clearStatus v s).cmd = s.cmd := rfl
@[simp] theorem clearStatus_flags (v : Word) (s : State) : (clearStatus v s).flags = s.flags := rfl
@[simp] theorem clearStatus_timespan (v : Word) (s : State) : (clearStatus v s).timespan = s.timespan := rfl
@[simp] theorem clearStatus_epochLen (v : Word) (s : State) : (clearStatus v s).epochLen = s.epochLen := rfl
@[simp] theorem clearStatus_cb (v : Word) (s : State) : (clearStatus v s).cb = s.cb := rfl
@[simp] theorem clearStatus_hdrS (v : Word) (s : State) : (clearStatus v s).hdrS = s.hdrS := rfl
@[simp] theorem clearStatus_hdrE (v : Word) (s : State) : (clearStatus v s).hdrE = s.hdrE := rfl
@[simp] theorem clearStatus_tg (v : Word) (s : State) : (clearStatus v s).tg = s.tg := rfl
@[simp] theorem clearStatus_powLimit (v : Word) (s : State) : (clearStatus v s).powLimit = s.powLimit := rfl
@[simp] theorem clearStatus_engine (v : Word) (s : State) : (clearStatus v s).engine = s.engine := rfl
@[simp] theorem clearStatus_inputs (v : Word) (s : State) : (clearStatus v s).inputs = s.inputs := rfl
@[simp] theorem clearStatus_port (v : Word) (s : State) : (clearStatus v s).port = s.port := rfl

/-! ## `dropWrite` -/

@[simp] theorem dropWrite_ctrl (s : State) : (dropWrite s).ctrl = s.ctrl := rfl
@[simp] theorem dropWrite_status (s : State) : (dropWrite s).status = { s.status with wdrop := true } := rfl
@[simp] theorem dropWrite_cmd (s : State) : (dropWrite s).cmd = s.cmd := rfl
@[simp] theorem dropWrite_flags (s : State) : (dropWrite s).flags = s.flags := rfl
@[simp] theorem dropWrite_timespan (s : State) : (dropWrite s).timespan = s.timespan := rfl
@[simp] theorem dropWrite_epochLen (s : State) : (dropWrite s).epochLen = s.epochLen := rfl
@[simp] theorem dropWrite_cb (s : State) : (dropWrite s).cb = s.cb := rfl
@[simp] theorem dropWrite_hdrS (s : State) : (dropWrite s).hdrS = s.hdrS := rfl
@[simp] theorem dropWrite_hdrE (s : State) : (dropWrite s).hdrE = s.hdrE := rfl
@[simp] theorem dropWrite_tg (s : State) : (dropWrite s).tg = s.tg := rfl
@[simp] theorem dropWrite_powLimit (s : State) : (dropWrite s).powLimit = s.powLimit := rfl
@[simp] theorem dropWrite_engine (s : State) : (dropWrite s).engine = s.engine := rfl
@[simp] theorem dropWrite_inputs (s : State) : (dropWrite s).inputs = s.inputs := rfl
@[simp] theorem dropWrite_port (s : State) : (dropWrite s).port = s.port := rfl

/-! ## `issue` -/

@[simp] theorem issue_ctrl (w : Word) (s : State) : (issue w s).ctrl = s.ctrl := rfl
@[simp] theorem issue_status (w : Word) (s : State) :
    (issue w s).status = { s.status with done := false, err := none } := rfl
@[simp] theorem issue_cmd (w : Word) (s : State) : (issue w s).cmd = w := rfl
@[simp] theorem issue_flags (w : Word) (s : State) : (issue w s).flags = s.flags := rfl
@[simp] theorem issue_timespan (w : Word) (s : State) : (issue w s).timespan = s.timespan := rfl
@[simp] theorem issue_epochLen (w : Word) (s : State) : (issue w s).epochLen = s.epochLen := rfl
@[simp] theorem issue_cb (w : Word) (s : State) : (issue w s).cb = s.cb := rfl
@[simp] theorem issue_hdrS (w : Word) (s : State) : (issue w s).hdrS = s.hdrS := rfl
@[simp] theorem issue_hdrE (w : Word) (s : State) : (issue w s).hdrE = s.hdrE := rfl
@[simp] theorem issue_tg (w : Word) (s : State) : (issue w s).tg = s.tg := rfl
@[simp] theorem issue_powLimit (w : Word) (s : State) : (issue w s).powLimit = s.powLimit := rfl
@[simp] theorem issue_engine (w : Word) (s : State) : (issue w s).engine = .busy w := rfl
@[simp] theorem issue_inputs (w : Word) (s : State) : (issue w s).inputs = s.inputs := rfl
@[simp] theorem issue_port (w : Word) (s : State) : (issue w s).port = s.port := rfl

/-! ## `serve` -/

@[simp] theorem serve_ctrl (a : Access) (s : State) : (serve a s).ctrl = (accessEffect a s).ctrl := rfl
@[simp] theorem serve_status (a : Access) (s : State) : (serve a s).status = (accessEffect a s).status := rfl
@[simp] theorem serve_cmd (a : Access) (s : State) : (serve a s).cmd = (accessEffect a s).cmd := rfl
@[simp] theorem serve_flags (a : Access) (s : State) : (serve a s).flags = (accessEffect a s).flags := rfl
@[simp] theorem serve_timespan (a : Access) (s : State) : (serve a s).timespan = (accessEffect a s).timespan := rfl
@[simp] theorem serve_epochLen (a : Access) (s : State) : (serve a s).epochLen = (accessEffect a s).epochLen := rfl
@[simp] theorem serve_cb (a : Access) (s : State) : (serve a s).cb = (accessEffect a s).cb := rfl
@[simp] theorem serve_hdrS (a : Access) (s : State) : (serve a s).hdrS = (accessEffect a s).hdrS := rfl
@[simp] theorem serve_hdrE (a : Access) (s : State) : (serve a s).hdrE = (accessEffect a s).hdrE := rfl
@[simp] theorem serve_tg (a : Access) (s : State) : (serve a s).tg = (accessEffect a s).tg := rfl
@[simp] theorem serve_powLimit (a : Access) (s : State) : (serve a s).powLimit = (accessEffect a s).powLimit := rfl
@[simp] theorem serve_engine (a : Access) (s : State) : (serve a s).engine = (accessEffect a s).engine := rfl
@[simp] theorem serve_inputs (a : Access) (s : State) : (serve a s).inputs = (accessEffect a s).inputs := rfl
@[simp] theorem serve_port (a : Access) (s : State) : (serve a s).port = some (accessResponse a s) := rfl

/-! ## `finish` -/

@[simp] theorem finish_ctrl (e : Option CmdError) (s : State) : (finish e s).ctrl = s.ctrl := rfl
@[simp] theorem finish_status (e : Option CmdError) (s : State) :
    (finish e s).status = { s.status with done := true, err := e } := rfl
@[simp] theorem finish_cmd (e : Option CmdError) (s : State) : (finish e s).cmd = s.cmd := rfl
@[simp] theorem finish_flags (e : Option CmdError) (s : State) : (finish e s).flags = s.flags := rfl
@[simp] theorem finish_timespan (e : Option CmdError) (s : State) : (finish e s).timespan = s.timespan := rfl
@[simp] theorem finish_epochLen (e : Option CmdError) (s : State) : (finish e s).epochLen = s.epochLen := rfl
@[simp] theorem finish_cb (e : Option CmdError) (s : State) : (finish e s).cb = s.cb := rfl
@[simp] theorem finish_hdrS (e : Option CmdError) (s : State) : (finish e s).hdrS = s.hdrS := rfl
@[simp] theorem finish_hdrE (e : Option CmdError) (s : State) : (finish e s).hdrE = s.hdrE := rfl
@[simp] theorem finish_tg (e : Option CmdError) (s : State) : (finish e s).tg = s.tg := rfl
@[simp] theorem finish_powLimit (e : Option CmdError) (s : State) : (finish e s).powLimit = s.powLimit := rfl
@[simp] theorem finish_engine (e : Option CmdError) (s : State) : (finish e s).engine = .idle := rfl
@[simp] theorem finish_inputs (e : Option CmdError) (s : State) : (finish e s).inputs = s.inputs := rfl
@[simp] theorem finish_port (e : Option CmdError) (s : State) : (finish e s).port = s.port := rfl

/-! ## `raiseError` -/

@[simp] theorem raiseError_ctrl (e : CmdError) (s : State) : (raiseError e s).ctrl = s.ctrl := rfl
@[simp] theorem raiseError_status (e : CmdError) (s : State) :
    (raiseError e s).status = { s.status with done := true, err := some e } := rfl
@[simp] theorem raiseError_cmd (e : CmdError) (s : State) : (raiseError e s).cmd = s.cmd := rfl
@[simp] theorem raiseError_flags (e : CmdError) (s : State) : (raiseError e s).flags = s.flags := rfl
@[simp] theorem raiseError_timespan (e : CmdError) (s : State) : (raiseError e s).timespan = s.timespan := rfl
@[simp] theorem raiseError_epochLen (e : CmdError) (s : State) : (raiseError e s).epochLen = s.epochLen := rfl
@[simp] theorem raiseError_cb (e : CmdError) (s : State) : (raiseError e s).cb = s.cb := rfl
@[simp] theorem raiseError_hdrS (e : CmdError) (s : State) : (raiseError e s).hdrS = s.hdrS := rfl
@[simp] theorem raiseError_hdrE (e : CmdError) (s : State) : (raiseError e s).hdrE = s.hdrE := rfl
@[simp] theorem raiseError_tg (e : CmdError) (s : State) : (raiseError e s).tg = s.tg := rfl
@[simp] theorem raiseError_powLimit (e : CmdError) (s : State) : (raiseError e s).powLimit = s.powLimit := rfl
@[simp] theorem raiseError_engine (e : CmdError) (s : State) : (raiseError e s).engine = .idle := rfl
@[simp] theorem raiseError_inputs (e : CmdError) (s : State) : (raiseError e s).inputs = s.inputs := rfl
@[simp] theorem raiseError_port (e : CmdError) (s : State) : (raiseError e s).port = s.port := rfl

/-! ## `commitSuccess` -/

@[simp] theorem commitSuccess_ctrl (d : Dest) (f : Flags) (s : State) :
    (commitSuccess d f s).ctrl = (writeDest d s).ctrl := rfl
@[simp] theorem commitSuccess_status (d : Dest) (f : Flags) (s : State) :
    (commitSuccess d f s).status = { (writeDest d s).status with done := true, err := none } := rfl
@[simp] theorem commitSuccess_cmd (d : Dest) (f : Flags) (s : State) :
    (commitSuccess d f s).cmd = (writeDest d s).cmd := rfl
@[simp] theorem commitSuccess_flags (d : Dest) (f : Flags) (s : State) : (commitSuccess d f s).flags = f := rfl
@[simp] theorem commitSuccess_timespan (d : Dest) (f : Flags) (s : State) :
    (commitSuccess d f s).timespan = (writeDest d s).timespan := rfl
@[simp] theorem commitSuccess_epochLen (d : Dest) (f : Flags) (s : State) :
    (commitSuccess d f s).epochLen = (writeDest d s).epochLen := rfl
@[simp] theorem commitSuccess_cb (d : Dest) (f : Flags) (s : State) :
    (commitSuccess d f s).cb = (writeDest d s).cb := rfl
@[simp] theorem commitSuccess_hdrS (d : Dest) (f : Flags) (s : State) :
    (commitSuccess d f s).hdrS = (writeDest d s).hdrS := rfl
@[simp] theorem commitSuccess_hdrE (d : Dest) (f : Flags) (s : State) :
    (commitSuccess d f s).hdrE = (writeDest d s).hdrE := rfl
@[simp] theorem commitSuccess_tg (d : Dest) (f : Flags) (s : State) :
    (commitSuccess d f s).tg = (writeDest d s).tg := rfl
@[simp] theorem commitSuccess_powLimit (d : Dest) (f : Flags) (s : State) :
    (commitSuccess d f s).powLimit = (writeDest d s).powLimit := rfl
@[simp] theorem commitSuccess_engine (d : Dest) (f : Flags) (s : State) : (commitSuccess d f s).engine = .idle := rfl
@[simp] theorem commitSuccess_inputs (d : Dest) (f : Flags) (s : State) :
    (commitSuccess d f s).inputs = (writeDest d s).inputs := rfl
@[simp] theorem commitSuccess_port (d : Dest) (f : Flags) (s : State) :
    (commitSuccess d f s).port = (writeDest d s).port := rfl

/-! ## `takeCycle` -/

@[simp] theorem takeCycle_ctrl (s : State) : (takeCycle s).ctrl = s.ctrl := rfl
@[simp] theorem takeCycle_status (s : State) : (takeCycle s).status = s.status := rfl
@[simp] theorem takeCycle_cmd (s : State) : (takeCycle s).cmd = s.cmd := rfl
@[simp] theorem takeCycle_flags (s : State) : (takeCycle s).flags = s.flags := rfl
@[simp] theorem takeCycle_timespan (s : State) : (takeCycle s).timespan = s.timespan := rfl
@[simp] theorem takeCycle_epochLen (s : State) : (takeCycle s).epochLen = s.epochLen := rfl
@[simp] theorem takeCycle_cb (s : State) : (takeCycle s).cb = s.cb := rfl
@[simp] theorem takeCycle_hdrS (s : State) : (takeCycle s).hdrS = s.hdrS := rfl
@[simp] theorem takeCycle_hdrE (s : State) : (takeCycle s).hdrE = s.hdrE := rfl
@[simp] theorem takeCycle_tg (s : State) : (takeCycle s).tg = s.tg := rfl
@[simp] theorem takeCycle_powLimit (s : State) : (takeCycle s).powLimit = s.powLimit := rfl
@[simp] theorem takeCycle_engine (s : State) : (takeCycle s).engine = s.engine := rfl
@[simp] theorem takeCycle_inputs (s : State) : (takeCycle s).inputs = s.inputs.tail := rfl
@[simp] theorem takeCycle_port (s : State) : (takeCycle s).port = none := rfl

/-! ## `resetCycle` -/

@[simp] theorem resetCycle_ctrl (a : Option Access) (s : State) : (resetCycle a s).ctrl = State.reset.ctrl := rfl
@[simp] theorem resetCycle_status (a : Option Access) (s : State) :
    (resetCycle a s).status = State.reset.status := rfl
@[simp] theorem resetCycle_cmd (a : Option Access) (s : State) : (resetCycle a s).cmd = State.reset.cmd := rfl
@[simp] theorem resetCycle_flags (a : Option Access) (s : State) : (resetCycle a s).flags = State.reset.flags := rfl
@[simp] theorem resetCycle_timespan (a : Option Access) (s : State) :
    (resetCycle a s).timespan = State.reset.timespan := rfl
@[simp] theorem resetCycle_epochLen (a : Option Access) (s : State) :
    (resetCycle a s).epochLen = State.reset.epochLen := rfl
@[simp] theorem resetCycle_cb (a : Option Access) (s : State) : (resetCycle a s).cb = State.reset.cb := rfl
@[simp] theorem resetCycle_hdrS (a : Option Access) (s : State) : (resetCycle a s).hdrS = State.reset.hdrS := rfl
@[simp] theorem resetCycle_hdrE (a : Option Access) (s : State) : (resetCycle a s).hdrE = State.reset.hdrE := rfl
@[simp] theorem resetCycle_tg (a : Option Access) (s : State) : (resetCycle a s).tg = State.reset.tg := rfl
@[simp] theorem resetCycle_powLimit (a : Option Access) (s : State) :
    (resetCycle a s).powLimit = State.reset.powLimit := rfl
@[simp] theorem resetCycle_engine (a : Option Access) (s : State) :
    (resetCycle a s).engine = State.reset.engine := rfl
@[simp] theorem resetCycle_inputs (a : Option Access) (s : State) : (resetCycle a s).inputs = s.inputs := rfl
@[simp] theorem resetCycle_port (a : Option Access) (s : State) : (resetCycle a s).port = a.map resetResponse := rfl

end Sys2Proof.Laws
end

