-- ==== Sys2Proof/Laws/Ops.lean ====
section
/-!
SUPPORT. What each named operation does, said once: target-format values, the register files, the window's
words, the port and the commit.
-/

namespace Sys2Proof.Laws

open Sys2Proof.Machine

/-! ## Target-format values (R14, R26) -/

theorem natAbs_targetValue (x : Target) : (targetValue x).natAbs = x.mag.toNat := by
  unfold targetValue; cases x.sign <;> simp

theorem natAbs_targetValue_lt (x : Target) : (targetValue x).natAbs < 2 ^ 2048 := by
  rw [natAbs_targetValue]; exact x.mag.isLt

theorem targetValue_putTarget {v : Int} (h : v.natAbs < 2 ^ 2048) : targetValue (putTarget v) = v := by
  simp only [targetValue, putTarget, BitVec.toNat_ofNat, Nat.mod_eq_of_lt h, decide_eq_true_eq]
  split <;> omega

theorem putTarget_zero : putTarget 0 = { sign := false, mag := 0#2048 } := rfl

/-! ## The register files (R14) -/

@[simp] theorem readTg_writeTg (i j : Fin 4) (x : Target) (s : State) :
    readTg j (writeTg i x s) = if i = j then x else readTg j s := by
  simp [readTg, Vector.getElem_set, Fin.ext_iff]

@[simp] theorem readCb_writeTg (i j : Fin 4) (x : Target) (s : State) :
    readCb j (writeTg i x s) = readCb j s := rfl

@[simp] theorem readCb_writeCb (i j : Fin 4) (w : Word) (s : State) :
    readCb j (writeCb i w s) = if i = j then w else readCb j s := by
  simp [readCb, Vector.getElem_set, Fin.ext_iff]

@[simp] theorem readTg_writeCb (i j : Fin 4) (w : Word) (s : State) :
    readTg j (writeCb i w s) = readTg j s := rfl

/-! ## The words of a magnitude (R26, R62) -/

theorem getLsbD_magWord (m : Magnitude) (k : Fin 64) (i : Nat) :
    (magWord m k).getLsbD i = (decide (i < 32) && m.getLsbD (32 * k.val + i)) := by
  simp [magWord]

theorem getLsbD_setMagWord (m : Magnitude) (k : Fin 64) (v : Word) (i : Nat) :
    (setMagWord m k v).getLsbD i =
      if 32 * k.val ≤ i ∧ i < 32 * k.val + 32 then v.getLsbD (i - 32 * k.val) else m.getLsbD i := by
  have hk := k.isLt
  simp only [setMagWord, BitVec.getLsbD_or, BitVec.getLsbD_and, BitVec.getLsbD_not,
    BitVec.getLsbD_shiftLeft, BitVec.getLsbD_setWidth, BitVec.getLsbD_allOnes]
  rcases Nat.lt_or_ge i (32 * k.val) with h1 | h1
  · have h2 : ¬ (32 * k.val ≤ i ∧ i < 32 * k.val + 32) := by omega
    have h3 : i < 2048 := by omega
    simp [h1, h2, h3]
  · rcases Nat.lt_or_ge i (32 * k.val + 32) with h2 | h2
    · have h3 : i < 2048 := by omega
      have h4 : i - 32 * k.val < 32 := by omega
      have h5 : i - 32 * k.val < 2048 := by omega
      simp [h1, h2, h3, h4, h5, Nat.not_lt.2 h1]
    · have h3 : ¬ (32 * k.val ≤ i ∧ i < 32 * k.val + 32) := by omega
      have h4 : ¬ i - 32 * k.val < 32 := by omega
      have h5 : v.getLsbD (i - 32 * k.val) = false := BitVec.getLsbD_of_ge _ _ (by omega)
      simp only [h3, h4, h5, Nat.not_lt.2 h1, if_false, decide_false]
      by_cases h6 : i < 2048
      · simp [h6]
      · simp [h6, BitVec.getLsbD_of_ge _ _ (Nat.not_lt.1 h6)]

@[simp] theorem magWord_setMagWord (m : Magnitude) (k j : Fin 64) (v : Word) :
    magWord (setMagWord m k v) j = if k = j then v else magWord m j := by
  apply BitVec.eq_of_getLsbD_eq
  intro i hi
  rw [getLsbD_magWord, getLsbD_setMagWord]
  rcases eq_or_ne k j with rfl | h
  · have : 32 * k.val ≤ 32 * k.val + i ∧ 32 * k.val + i < 32 * k.val + 32 := by omega
    simp [hi]
  · have h' : k.val ≠ j.val := fun e => h (Fin.ext e)
    have : ¬ (32 * k.val ≤ 32 * j.val + i ∧ 32 * j.val + i < 32 * k.val + 32) := by omega
    simp only [this, if_false, h]
    rw [getLsbD_magWord]

/-! ## The target-format registers by name -/

@[simp] theorem readTarget_writeTarget (x y : TargetName) (t : Target) (s : State) :
    readTarget y (writeTarget x t s) = if x = y then t else readTarget y s := by
  cases x <;> cases y <;> simp [readTarget, writeTarget]
  rfl

@[simp] theorem readHeader_writeHeader (a b : HeaderSide) (f : HeaderField) (v : Word) (s : State) :
    readHeader b (writeHeader a f v s) =
      if a = b then setHeaderWord (readHeader b s) f v else readHeader b s := by
  cases a <;> cases b <;> simp [readHeader, writeHeader]

@[simp] theorem headerWord_setHeaderWord (h : Header) (f g : HeaderField) (v : Word) :
    headerWord (setHeaderWord h f v) g = if f = g then v else headerWord h g := by
  cases f <;> cases g <;> rfl

/-! ## Writes by name leave the other fields alone -/

@[simp] theorem writeTarget_ctrl (x : TargetName) (t : Target) (s : State) :
    (writeTarget x t s).ctrl = s.ctrl := by cases x <;> rfl
@[simp] theorem writeTarget_status (x : TargetName) (t : Target) (s : State) :
    (writeTarget x t s).status = s.status := by cases x <;> rfl
@[simp] theorem writeTarget_cmd (x : TargetName) (t : Target) (s : State) :
    (writeTarget x t s).cmd = s.cmd := by cases x <;> rfl
@[simp] theorem writeTarget_flags (x : TargetName) (t : Target) (s : State) :
    (writeTarget x t s).flags = s.flags := by cases x <;> rfl
@[simp] theorem writeTarget_timespan (x : TargetName) (t : Target) (s : State) :
    (writeTarget x t s).timespan = s.timespan := by cases x <;> rfl
@[simp] theorem writeTarget_epochLen (x : TargetName) (t : Target) (s : State) :
    (writeTarget x t s).epochLen = s.epochLen := by cases x <;> rfl
@[simp] theorem writeTarget_cb (x : TargetName) (t : Target) (s : State) :
    (writeTarget x t s).cb = s.cb := by cases x <;> rfl
@[simp] theorem writeTarget_hdrS (x : TargetName) (t : Target) (s : State) :
    (writeTarget x t s).hdrS = s.hdrS := by cases x <;> rfl
@[simp] theorem writeTarget_hdrE (x : TargetName) (t : Target) (s : State) :
    (writeTarget x t s).hdrE = s.hdrE := by cases x <;> rfl
@[simp] theorem writeTarget_engine (x : TargetName) (t : Target) (s : State) :
    (writeTarget x t s).engine = s.engine := by cases x <;> rfl
@[simp] theorem writeTarget_inputs (x : TargetName) (t : Target) (s : State) :
    (writeTarget x t s).inputs = s.inputs := by cases x <;> rfl
@[simp] theorem writeTarget_port (x : TargetName) (t : Target) (s : State) :
    (writeTarget x t s).port = s.port := by cases x <;> rfl
@[simp] theorem writeHeader_ctrl (a : HeaderSide) (f : HeaderField) (v : Word) (s : State) :
    (writeHeader a f v s).ctrl = s.ctrl := by cases a <;> rfl
@[simp] theorem writeHeader_status (a : HeaderSide) (f : HeaderField) (v : Word) (s : State) :
    (writeHeader a f v s).status = s.status := by cases a <;> rfl
@[simp] theorem writeHeader_cmd (a : HeaderSide) (f : HeaderField) (v : Word) (s : State) :
    (writeHeader a f v s).cmd = s.cmd := by cases a <;> rfl
@[simp] theorem writeHeader_flags (a : HeaderSide) (f : HeaderField) (v : Word) (s : State) :
    (writeHeader a f v s).flags = s.flags := by cases a <;> rfl
@[simp] theorem writeHeader_timespan (a : HeaderSide) (f : HeaderField) (v : Word) (s : State) :
    (writeHeader a f v s).timespan = s.timespan := by cases a <;> rfl
@[simp] theorem writeHeader_epochLen (a : HeaderSide) (f : HeaderField) (v : Word) (s : State) :
    (writeHeader a f v s).epochLen = s.epochLen := by cases a <;> rfl
@[simp] theorem writeHeader_cb (a : HeaderSide) (f : HeaderField) (v : Word) (s : State) :
    (writeHeader a f v s).cb = s.cb := by cases a <;> rfl
@[simp] theorem writeHeader_tg (a : HeaderSide) (f : HeaderField) (v : Word) (s : State) :
    (writeHeader a f v s).tg = s.tg := by cases a <;> rfl
@[simp] theorem writeHeader_powLimit (a : HeaderSide) (f : HeaderField) (v : Word) (s : State) :
    (writeHeader a f v s).powLimit = s.powLimit := by cases a <;> rfl
@[simp] theorem writeHeader_engine (a : HeaderSide) (f : HeaderField) (v : Word) (s : State) :
    (writeHeader a f v s).engine = s.engine := by cases a <;> rfl
@[simp] theorem writeHeader_inputs (a : HeaderSide) (f : HeaderField) (v : Word) (s : State) :
    (writeHeader a f v s).inputs = s.inputs := by cases a <;> rfl
@[simp] theorem writeHeader_port (a : HeaderSide) (f : HeaderField) (v : Word) (s : State) :
    (writeHeader a f v s).port = s.port := by cases a <;> rfl

@[simp] theorem readCb_writeTarget (i : Fin 4) (x : TargetName) (t : Target) (s : State) :
    readCb i (writeTarget x t s) = readCb i s := by simp [readCb]

@[simp] theorem readCb_writeHeader (i : Fin 4) (a : HeaderSide) (f : HeaderField) (v : Word) (s : State) :
    readCb i (writeHeader a f v s) = readCb i s := by simp [readCb]

@[simp] theorem readHeader_writeTarget (a : HeaderSide) (x : TargetName) (t : Target) (s : State) :
    readHeader a (writeTarget x t s) = readHeader a s := by cases a <;> simp [readHeader]

@[simp] theorem readHeader_writeCb (a : HeaderSide) (i : Fin 4) (w : Word) (s : State) :
    readHeader a (writeCb i w s) = readHeader a s := by cases a <;> rfl

@[simp] theorem readTarget_writeHeader (x : TargetName) (a : HeaderSide) (f : HeaderField) (v : Word) (s : State) :
    readTarget x (writeHeader a f v s) = readTarget x s := by cases x <;> simp [readTarget, readTg]

@[simp] theorem readTarget_writeCb (x : TargetName) (i : Fin 4) (w : Word) (s : State) :
    readTarget x (writeCb i w s) = readTarget x s := by cases x <;> rfl

/-! ## Words read from a state -/

/-- A read of a register word depends on these fields only. -/
theorem readReg_congr {s t : State} (r : WindowReg) (h1 : t.ctrl = s.ctrl) (h2 : t.cmd = s.cmd)
    (h3 : t.timespan = s.timespan) (h4 : t.epochLen = s.epochLen) (h5 : t.cb = s.cb) (h6 : t.hdrS = s.hdrS)
    (h7 : t.hdrE = s.hdrE) (h8 : t.tg = s.tg) (h9 : t.powLimit = s.powLimit)
    (hs : r = .status → statusWord t = statusWord s) (hf : r = .flags → t.flags = s.flags) :
    readReg r t = readReg r s := by
  have hT : ∀ x, readTarget x t = readTarget x s := by
    intro x; cases x <;> simp [readTarget, readTg, h8, h9]
  have hH : ∀ x, readHeader x t = readHeader x s := by
    intro x; cases x <;> simp [readHeader, h6, h7]
  cases r <;> simp [readReg, readCb, h1, h2, h3, h4, h5, hT, hH]
  · exact hs rfl
  · rw [hf rfl]

/-! ## The engine's state as STATUS.BUSY (R24, R36) -/

theorem busy_of_idle {s : State} (h : s.engine = .idle) : busy s = false := by simp [busy, h]

theorem busy_of_busy {s : State} {w : Word} (h : s.engine = .busy w) : busy s = true := by simp [busy, h]

/-! ## Host writes (R65, R171, R174) -/

/-- All that a host write can do: clear STATUS bits, be dropped, issue, or write one word. -/
theorem hostWriteReg_cases (r : WindowReg) (v : Word) (s : State) :
    (r = .status ∧ hostWriteReg r v s = clearStatus v s) ∨
    (r ≠ .status ∧ busy s = true ∧ hostWriteReg r v s = dropWrite s) ∨
    (r = .cmd ∧ busy s = false ∧ hostWriteReg r v s = issue v s) ∨
    (r ≠ .status ∧ r ≠ .cmd ∧ busy s = false ∧ hostWriteReg r v s = writeReg r v s) := by
  cases hb : busy s <;> cases r <;> simp [hostWriteReg, hb]

theorem hostWriteReg_of_busy {r : WindowReg} {v : Word} {s : State} (hr : r ≠ .status)
    (hb : busy s = true) : hostWriteReg r v s = dropWrite s := by
  cases r <;> simp_all [hostWriteReg]

theorem hostWriteReg_of_idle {r : WindowReg} {v : Word} {s : State} (hr : r ≠ .status) (hc : r ≠ .cmd)
    (hb : busy s = false) : hostWriteReg r v s = writeReg r v s := by
  cases r <;> simp_all [hostWriteReg]

/-- A word write leaves the engine, STATUS, CMD, FLAGS and the model's own fields alone. -/
theorem writeReg_keeps (r : WindowReg) (v : Word) (s : State) :
    (writeReg r v s).engine = s.engine ∧ (writeReg r v s).status = s.status ∧
    (writeReg r v s).cmd = s.cmd ∧ (writeReg r v s).flags = s.flags ∧
    (writeReg r v s).inputs = s.inputs ∧ (writeReg r v s).port = s.port := by
  rcases r with _ | _ | _ | _ | _ | _ | _ | i | ⟨a, f⟩ | x | ⟨x, k⟩ | _ <;>
    first
    | (cases a <;> exact ⟨rfl, rfl, rfl, rfl, rfl, rfl⟩)
    | (cases x <;> exact ⟨rfl, rfl, rfl, rfl, rfl, rfl⟩)
    | exact ⟨rfl, rfl, rfl, rfl, rfl, rfl⟩

theorem statusWord_congr {s t : State} (h1 : t.engine = s.engine) (h2 : t.status = s.status) :
    statusWord t = statusWord s := by
  simp [statusWord, busy, h1, h2]

/-- STATUS[11:8] reads the error code (R24, R180). -/
theorem statusWord_err (s : State) : (statusWord s).extractLsb' 8 4 = errCode s.status.err := by
  simp only [statusWord]
  rcases s.status with ⟨a, b, c⟩
  cases a <;> cases b <;> cases busy s <;> rcases c with _ | (_ | _ | _ | _) <;> decide

/-- STATUS[0] reads BUSY (R24, R36). -/
theorem statusWord_busy (s : State) : (statusWord s).getLsbD 0 = busy s := by
  simp only [statusWord]
  rcases s.status with ⟨a, b, c⟩
  cases a <;> cases b <;> cases busy s <;> rcases c with _ | (_ | _ | _ | _) <;> decide

/-- All that a transaction can do to the registers (R61, R65). -/
theorem accessEffect_cases (a : Access) (s : State) :
    accessEffect a s = s ∨ ∃ r v, accessEffect a s = hostWriteReg r v s := by
  cases a with
  | read off width => exact .inl rfl
  | write off width v =>
    by_cases h : served (.write off width v)
    · exact .inr ⟨windowReg off, v, by simp [accessEffect, h, hostWrite]⟩
    · exact .inl (by simp [accessEffect, h])

theorem served_iff (a : Access) :
    served a = true ↔ accessWidth a = .bits32 ∧ accessOffset a % 4 = 0 ∧ accessOffset a < 0x2000 := by
  simp only [served, Bool.and_eq_true, beq_iff_eq, decide_eq_true_eq, and_assoc]
  exact Iff.rfl

/-! ## Commit (R173) -/

@[simp] theorem commit_success (d : Dest) (f : Flags) (s : State) :
    commit (.success d f) s = commitSuccess d f s := rfl

@[simp] theorem commit_error (e : CmdError) (s : State) : commit (.error e) s = raiseError e s := rfl

@[simp] theorem writeDest_nothing (s : State) : writeDest .nothing s = s := rfl
@[simp] theorem writeDest_tg (i : Fin 4) (v : Int) (s : State) :
    writeDest (.tg i v) s = writeTg i (putTarget v) s := rfl
@[simp] theorem writeDest_cb (i : Fin 4) (w : Word) (s : State) :
    writeDest (.cb i w) s = writeCb i w s := rfl

@[simp] theorem readTg_commitSuccess (d : Dest) (f : Flags) (i : Fin 4) (s : State) :
    readTg i (commitSuccess d f s) = readTg i (writeDest d s) := rfl
@[simp] theorem readCb_commitSuccess (d : Dest) (f : Flags) (i : Fin 4) (s : State) :
    readCb i (commitSuccess d f s) = readCb i (writeDest d s) := rfl

/-- A destination write changes CB and TG at most. -/
theorem writeDest_keeps (d : Dest) (s : State) :
    (writeDest d s).ctrl = s.ctrl ∧ (writeDest d s).status = s.status ∧ (writeDest d s).cmd = s.cmd ∧
    (writeDest d s).flags = s.flags ∧ (writeDest d s).timespan = s.timespan ∧
    (writeDest d s).epochLen = s.epochLen ∧ (writeDest d s).hdrS = s.hdrS ∧ (writeDest d s).hdrE = s.hdrE ∧
    (writeDest d s).powLimit = s.powLimit ∧ (writeDest d s).engine = s.engine ∧
    (writeDest d s).inputs = s.inputs ∧ (writeDest d s).port = s.port := by
  cases d <;> exact ⟨rfl, rfl, rfl, rfl, rfl, rfl, rfl, rfl, rfl, rfl, rfl, rfl⟩

/-- Every commit ends the command: Idle, DONE, WDROP as it was (R173). -/
theorem commit_ends (o : CommandOutcome) (s : State) :
    (commit o s).engine = .idle ∧ (commit o s).status.done = true ∧
    (commit o s).status.wdrop = s.status.wdrop ∧ (commit o s).inputs = s.inputs ∧
    (commit o s).port = s.port ∧ (commit o s).cmd = s.cmd ∧ (commit o s).ctrl = s.ctrl := by
  cases o with
  | success d f => cases d <;> exact ⟨rfl, rfl, rfl, rfl, rfl, rfl, rfl⟩
  | error e => exact ⟨rfl, rfl, rfl, rfl, rfl, rfl, rfl⟩

/-- A word write changes no other word of the window (R66). -/
theorem readReg_writeReg_other {r r' : WindowReg} (h : r' ≠ r) (v : Word) (s : State) :
    readReg r' (writeReg r v s) = readReg r' s := by
  have hk := writeReg_keeps r v s
  have hst : statusWord (writeReg r v s) = statusWord s := statusWord_congr hk.1 hk.2.1
  have hcmd := hk.2.2.1
  have hfl := hk.2.2.2.1
  have hT : ∀ y, (∀ x, r = .sign x → y ≠ x) → (∀ x k, r = .mag x k → y ≠ x) →
      readTarget y (writeReg r v s) = readTarget y s := by
    intro y h1 h2
    cases r <;> simp only [writeReg, readTarget_writeTarget, readTarget_writeCb, readTarget_writeHeader]
    · cases y <;> rfl
    · cases y <;> rfl
    · cases y <;> rfl
    · rename_i x; rw [if_neg (h1 x rfl).symm]
    · rename_i x k; rw [if_neg (h2 x k rfl).symm]
  have hH : ∀ b g, WindowReg.hdr b g ≠ r →
      headerWord (readHeader b (writeReg r v s)) g = headerWord (readHeader b s) g := by
    intro b g hr
    cases r <;> simp only [writeReg, readHeader_writeTarget, readHeader_writeCb, readHeader_writeHeader]
    · cases b <;> rfl
    · cases b <;> rfl
    · cases b <;> rfl
    · rename_i a f
      split
      · rename_i hab; subst hab
        rw [headerWord_setHeaderWord, if_neg]; rintro rfl; exact hr rfl
      · rfl
  cases r' with
  | id => rfl
  | reserved => rfl
  | status => exact hst
  | cmd => exact hcmd
  | flags => simp only [readReg, hfl]
  | ctrl => simp only [readReg]; cases r <;> simp_all [writeReg]
  | timespan => simp only [readReg]; cases r <;> simp_all [writeReg]
  | epochLen => simp only [readReg]; cases r <;> simp_all [writeReg]
  | cb i =>
    simp only [readReg]
    cases r <;> simp only [writeReg, readCb_writeTarget, readCb_writeHeader, readCb_writeCb]
    · rfl
    · rfl
    · rfl
    · rename_i j; rw [if_neg]; rintro rfl; exact h rfl
  | hdr b g => exact hH b g h
  | sign y =>
    simp only [readReg]
    by_cases hm : ∃ k, r = .mag y k
    · obtain ⟨k, rfl⟩ := hm; simp [writeReg]
    · rw [hT y (by rintro x rfl rfl; exact h rfl) (by rintro x k rfl rfl; exact hm ⟨k, rfl⟩)]
  | mag y l =>
    simp only [readReg]
    by_cases hs : r = .sign y
    · subst hs; simp [writeReg]
    · by_cases hm : ∃ k, r = .mag y k
      · obtain ⟨k, rfl⟩ := hm
        simp only [writeReg, readTarget_writeTarget, if_true, magWord_setMagWord]
        rw [if_neg]; rintro rfl; exact h rfl
      · rw [hT y (by rintro x rfl rfl; exact hs rfl) (by rintro x k rfl rfl; exact hm ⟨k, rfl⟩)]

/-! ## The port (R61) -/

theorem served_read {off : Nat} (h4 : off % 4 = 0) (h : off < 0x2000) : served (.read off .bits32) = true :=
  (served_iff _).2 ⟨rfl, h4, h⟩

theorem served_write {off : Nat} (v : Word) (h4 : off % 4 = 0) (h : off < 0x2000) :
    served (.write off .bits32 v) = true :=
  (served_iff _).2 ⟨rfl, h4, h⟩

/-- A served read changes nothing but the port's answer. -/
theorem serve_read {off : Nat} (s : State) (h4 : off % 4 = 0) (h : off < 0x2000) :
    serve (.read off .bits32) s = { s with port := some (.okRead (readOffset off s)) } := by
  simp [serve, accessEffect, accessResponse, served_read h4 h]

/-- A served write is the host write of its offset. -/
theorem serve_write {off : Nat} (v : Word) (s : State) (h4 : off % 4 = 0) (h : off < 0x2000) :
    serve (.write off .bits32 v) s = { hostWrite off v s with port := some .okWrite } := by
  simp [serve, accessEffect, accessResponse, served_write v h4 h]

/-- The words of a target-format register stand at their offsets (R26, R63). -/
theorem windowReg_targetBase (x : TargetName) :
    windowReg (targetBase x) = .sign x ∧
    ∀ k : Fin 64, windowReg (targetBase x + 0x100 + 4 * k.val) = .mag x k := by
  cases x with
  | tg i => revert i; decide +kernel
  | powLimit => decide +kernel

end Sys2Proof.Laws
end

