-- ==== Sys2Proof/Laws/NextTarget.lean ====
section
/-!
SUPPORT. Laws of NextTarget: the height increment as R142 writes it (R143), the clamp (R146), the two
quotients in the library's terms (R13, R148), and all that NextTarget can answer (R142).
-/

namespace Sys2Proof.Laws

open Sys2Proof.Machine
open Sys2Proof.Config (HeightIncMode NegQuotMode)

/-- R142's line for `hp1`: the definition looks at the parameter only where the readings differ. -/
theorem heightPlusOne_eq (mode : HeightIncMode) (hE : Nat) :
    heightPlusOne mode hE = if mode = .exact then hE + 1 else (hE + 1) % 2 ^ 32 := by
  unfold heightPlusOne
  cases mode <;> simp
  intro h; omega

/-- The clamp of step 3 as a maximum and a minimum (R146). -/
theorem clampedSpan_eq (x : RetargetInputs) :
    clampedSpan x = max (spanMin x) (min (rawSpan x) (spanMax x)) := by
  have h : spanMin x ≤ spanMax x := by simp only [spanMin, spanMax]; omega
  unfold clampedSpan
  split
  · omega
  · split <;> omega

theorem clampedSpan_bounds (x : RetargetInputs) :
    spanMin x ≤ clampedSpan x ∧ clampedSpan x ≤ spanMax x := by
  have h : spanMin x ≤ spanMax x := by simp only [spanMin, spanMax]; omega
  rw [clampedSpan_eq]; omega

theorem clampedSpan_nonneg (x : RetargetInputs) : 0 ≤ clampedSpan x :=
  le_trans (by simp only [spanMin]; omega) (clampedSpan_bounds x).1

/-- `quot_trunc` is the library's truncating division (R13). -/
theorem quotTrunc_eq_tdiv (p : Int) (q : Nat) : quotTrunc p q = p.tdiv q := by
  unfold quotTrunc
  obtain ⟨n, rfl | rfl⟩ := Int.eq_nat_or_neg p
  · rcases Nat.eq_zero_or_pos n with rfl | hn
    · simp
    · rw [Int.sign_eq_one_of_pos (by omega), Int.tdiv_eq_ediv_of_nonneg (by omega)]
      simp
  · rcases Nat.eq_zero_or_pos n with rfl | hn
    · simp
    · rw [Int.sign_eq_neg_one_of_neg (by omega), Int.neg_tdiv, Int.tdiv_eq_ediv_of_nonneg (by omega)]
      simp

/-- The quotient of step 5: truncating, or, for a negative product under FLOOR, rounded down (R148). -/
theorem retargetQuotient_eq (nm : NegQuotMode) (p : Int) (t : Nat) :
    retargetQuotient nm p t = if nm = .floor then p.fdiv t else p.tdiv t := by
  unfold retargetQuotient
  rcases lt_or_ge p 0 with h | h
  · cases nm <;> simp [h, quotTrunc_eq_tdiv, quotFloor]
  · have h' : ¬ p < 0 := by omega
    cases nm
    · simp [h', quotTrunc_eq_tdiv]
    · simp only [h', if_false, quotTrunc_eq_tdiv, if_true]
      rw [Int.tdiv_eq_ediv_of_nonneg h, Int.fdiv_eq_ediv_of_nonneg _ (Int.natCast_nonneg t)]

theorem ceilTarget_eq (q limit : Int) : ceilTarget q limit = min q limit := by
  unfold ceilTarget; split <;> omega

/-- All that NextTarget can answer, in the order of its checks (R142, R155). -/
theorem nextTarget_cases (hm : HeightIncMode) (nm : NegQuotMode) (x : RetargetInputs) :
    (x.L = 0 ∧ nextTarget hm nm x = .config) ∨
    (x.L ≠ 0 ∧ retargetDue hm x = false ∧ nextTarget hm nm x = .target (compactDecode x.bE)) ∨
    (x.L ≠ 0 ∧ retargetDue hm x = true ∧ x.T = 0 ∧ nextTarget hm nm x = .config) ∨
    (x.L ≠ 0 ∧ retargetDue hm x = true ∧ x.T ≠ 0 ∧ startMismatch hm x = true ∧ x.strict = true ∧
      nextTarget hm nm x = .epoch) ∨
    (x.L ≠ 0 ∧ retargetDue hm x = true ∧ x.T ≠ 0 ∧ ¬ (startMismatch hm x = true ∧ x.strict = true) ∧
      nextTarget hm nm x = .target (min (quotient nm x) x.PL)) := by
  by_cases hL : x.L = 0
  · left; simp [nextTarget, hL]
  · cases hd : retargetDue hm x
    · right; left; simp [nextTarget, hL, hd]
    · by_cases hT : x.T = 0
      · right; right; left; simp [nextTarget, hL, hd, hT]
      · right; right; right
        cases hm' : startMismatch hm x <;> cases hs : x.strict <;>
          simp [nextTarget, hL, hd, hT, hm', hs, ceilTarget_eq]

/-- The start height's check as the rule writes it (R151). -/
theorem startMismatch_eq (hm : HeightIncMode) (x : RetargetInputs) :
    startMismatch hm x = decide ((x.hS : Int) ≠ (heightPlusOne hm x.hE : Int) - (x.L : Int)) := rfl

theorem retargetDue_eq (hm : HeightIncMode) (x : RetargetInputs) :
    retargetDue hm x = decide (heightPlusOne hm x.hE % x.L = 0) := by
  rw [retargetDue, Bool.eq_iff_iff]; simp

/-- The bounds of the quotient (R150): at most 4 times the last target, and one more under FLOOR. -/
theorem natAbs_quotient_le (nm : NegQuotMode) (x : RetargetInputs) (hT : 0 < x.T) :
    (quotient nm x).natAbs ≤ 4 * (compactDecode x.bE).natAbs + (if nm = .floor then 1 else 0) := by
  have hb := clampedSpan_bounds x
  have h0 := clampedSpan_nonneg x
  have hspan : (clampedSpan x).natAbs ≤ 4 * x.T := by
    have := hb.2; simp only [spanMax] at this; omega
  have hp : (compactDecode x.bE * clampedSpan x).natAbs ≤ (4 * (compactDecode x.bE).natAbs) * x.T := by
    rw [Int.natAbs_mul]
    calc _ ≤ (compactDecode x.bE).natAbs * (4 * x.T) := Nat.mul_le_mul_left _ hspan
      _ = _ := by ring
  have hq : (compactDecode x.bE * clampedSpan x).natAbs / x.T ≤ 4 * (compactDecode x.bE).natAbs :=
    Nat.div_le_of_le_mul (by rwa [Nat.mul_comm] at hp)
  rw [quotient, retargetQuotient_eq]
  generalize compactDecode x.bE * clampedSpan x = p at hq hp
  cases nm
  · have : ¬ (NegQuotMode.trunc = NegQuotMode.floor) := by decide
    simp only [this, if_false]
    rw [Int.natAbs_tdiv]; exact hq
  · simp only [if_true]
    rw [Int.fdiv_eq_ediv_of_nonneg _ (Int.natCast_nonneg _)]
    rcases lt_or_ge p 0 with hn | hn
    · have h1 : (p / (x.T : Int)) ≤ 0 := Int.ediv_nonpos_of_nonpos_of_neg (by omega) (by omega)
      have h2 : -(4 * ((compactDecode x.bE).natAbs : Int)) ≤ p / (x.T : Int) := by
        rw [Int.le_ediv_iff_mul_le (by omega)]
        have : ((p.natAbs : Int)) ≤ (4 * ((compactDecode x.bE).natAbs : Int)) * x.T := by exact_mod_cast hp
        have h3 : (p.natAbs : Int) = -p := by omega
        rw [h3] at this
        rw [neg_mul]; omega
      omega
    · have h1 : 0 ≤ p / (x.T : Int) := Int.ediv_nonneg hn (by omega)
      have h2 : p / (x.T : Int) ≤ 4 * ((compactDecode x.bE).natAbs : Int) := by
        apply Int.ediv_le_of_le_mul (by omega)
        have : ((p.natAbs : Int)) ≤ (4 * ((compactDecode x.bE).natAbs : Int)) * x.T := by exact_mod_cast hp
        have h3 : (p.natAbs : Int) = p := by omega
        rwa [h3] at this
      omega

/-- The quotient of a step fits a target register (R150). -/
theorem natAbs_quotient_lt (nm : Config.NegQuotMode) (x : RetargetInputs) (hT : 0 < x.T) :
    (quotient nm x).natAbs < 2 ^ 2042 := by
  have h1 := natAbs_quotient_le nm x hT
  have h2 := natAbs_compactDecode_lt x.bE
  have p1 : (2:ℕ)^2042 = 2^2039 * 8 := by rw [show (8:ℕ) = 2^3 by rfl, ← Nat.pow_add]
  have p0 : 0 < (2:ℕ)^2039 := by positivity
  rw [p1]
  generalize (2:ℕ)^2039 = A at *
  split at h1 <;> omega

end Sys2Proof.Laws
end

