-- ==== Sys2Proof/Laws/Step.lean ====
section
/-!
SUPPORT. What a command, the engine and a step can do, said once: every command is the commit of an outcome
that depends on its operands only, the engine's turn is a commit or nothing, and a step is one cycle.
-/

namespace Sys2Proof.Laws

open Sys2Proof.Machine

/-- The outcome a command commits (R172). -/
def instrOutcome (i : Instr) (s : State) : CommandOutcome :=
  match i with
  | .nop => nopOutcome
  | .decode dst src => decodeOutcome dst src s
  | .encode dst src => encodeOutcome dst src s
  | .retarget dst => retargetOutcome Config.heightIncMode Config.negQuotMode dst s

/-- Every command is the commit of its outcome (R173). -/
theorem exec_eq_commit (i : Instr) (s : State) : exec i s = .next (commit (instrOutcome i s) s) := by
  cases i <;> rfl

theorem exec_next {i : Instr} {s t : State} (h : exec i s = .next t) : t = commit (instrOutcome i s) s := by
  rw [exec_eq_commit] at h; exact (Host.Outcome.next.inj h).symm

/-- ENCODE's outcome: RANGE or a word (R127). -/
theorem encodeOutcome_range {dst src : Fin 4} {s : State} (h : compactEncode (targetValue (readTg src s)) = .range) :
    encodeOutcome dst src s = .error .range := by
  simp [encodeOutcome, encodeSource, h]

theorem encodeOutcome_word {dst src : Fin 4} {s : State} {w : Word} {ovf : Bool}
    (h : compactEncode (targetValue (readTg src s)) = .word w ovf) :
    encodeOutcome dst src s = .success (.cb dst w) (encodeFlags (targetValue (readTg src s)) w ovf) := by
  simp [encodeOutcome, encodeSource, h]

/-- An outcome depends on the registers a command reads, and on nothing else (R38, R172). -/
theorem instrOutcome_congr (i : Instr) {s t : State} (hcb : t.cb = s.cb) (htg : t.tg = s.tg)
    (hx : retargetInputs t = retargetInputs s) : instrOutcome i t = instrOutcome i s := by
  cases i <;> simp [instrOutcome, decodeOutcome, decodeSource, encodeOutcome, encodeSource, retargetOutcome,
    readCb, readTg, hcb, htg, hx]

theorem retargetInputs_congr {s t : State} (h1 : t.hdrS = s.hdrS) (h2 : t.hdrE = s.hdrE)
    (h3 : t.timespan = s.timespan) (h4 : t.epochLen = s.epochLen) (h5 : t.powLimit = s.powLimit)
    (h6 : t.ctrl = s.ctrl) : retargetInputs t = retargetInputs s := by
  simp [retargetInputs, h1, h2, h3, h4, h5, h6]

/-- The outcome of the word in flight: the command's, or ERR_ILLEGAL (R172, R177). -/
def wordOutcome (w : Word) (s : State) : CommandOutcome :=
  match decodeWord w with
  | .ok i => instrOutcome i s
  | .error _ => .error .illegal

theorem engineTurn_idle {s : State} (h : s.engine = .idle) : engineTurn s = .next s := by
  simp [engineTurn, h]

theorem engineTurn_busy {s : State} {w : Word} (h : s.engine = .busy w) :
    engineTurn s = .next (commit (wordOutcome w s) s) := by
  simp only [engineTurn, h, wordOutcome]
  cases decodeWord w with
  | ok i => exact exec_eq_commit i s
  | error e => rfl

/-- All that the engine's part of a cycle can do: nothing, or the commit of the word in flight (R173). -/
theorem enginePart_cases (c : Cycle) (s : State) :
    (enginePart c s = .next s ∧ (s.engine = .idle ∨ c.commit = false)) ∨
    ∃ w, s.engine = .busy w ∧ c.commit = true ∧ enginePart c s = .next (commit (wordOutcome w s) s) := by
  unfold enginePart
  cases c.commit
  · simp
  · cases h : s.engine with
    | idle => simp [engineTurn_idle h]
    | busy w => simp [engineTurn_busy h]

/-- All that a step can do: a reset cycle; a transaction alone; or a commit and then a transaction (R68, R210). -/
theorem step_cases (s : State) :
    ((nextCycle s).rst = true ∧ step s = .next (resetCycle (nextCycle s).access (takeCycle s))) ∨
    ((nextCycle s).rst = false ∧ (s.engine = .idle ∨ (nextCycle s).commit = false) ∧
      step s = .next (serveCycle (nextCycle s).access (takeCycle s))) ∨
    ((nextCycle s).rst = false ∧ ∃ w, s.engine = .busy w ∧ (nextCycle s).commit = true ∧
      step s = .next (serveCycle (nextCycle s).access (commit (wordOutcome w (takeCycle s)) (takeCycle s)))) := by
  unfold step runCycle
  cases hr : (nextCycle s).rst
  · right
    rcases enginePart_cases (nextCycle s) (takeCycle s) with ⟨h, hw⟩ | ⟨w, hw, hc, h⟩
    · left; rw [h]; exact ⟨rfl, hw, rfl⟩
    · right; rw [h]; exact ⟨rfl, w, hw, hc, rfl⟩
  · left; exact ⟨rfl, rfl⟩

/-- A cycle presents no transaction, or one that is served (R69). -/
theorem serveCycle_cases (a : Option Access) (s : State) :
    serveCycle a s = s ∨ ∃ x, a = some x ∧ serveCycle a s = serve x s := by
  cases a with
  | none => exact .inl rfl
  | some x => exact .inr ⟨x, rfl, rfl⟩

theorem wordOutcome_ok {w : Word} {i : Instr} (h : decodeWord w = .ok i) (s : State) :
    wordOutcome w s = instrOutcome i s := by
  simp [wordOutcome, h]

/-- DECODE's outcome is always a success (R117, R118). -/
theorem decodeOutcome_eq (dst src : Fin 4) (s : State) :
    decodeOutcome dst src s = .success (.tg dst (compactDecode (readCb src s)))
      { Flags.clear with
        zero := decide (compactDecode (readCb src s) = 0), neg := decide (compactDecode (readCb src s) < 0),
        signIn := (readCb src s).getLsbD 23 } := rfl

/-- RETARGET's outcome in terms of NextTarget's answer (R153, R154). -/
theorem retargetOutcome_eq (dst : Fin 4) (s : State) :
    retargetOutcome Config.heightIncMode Config.negQuotMode dst s =
      match nextTarget Config.heightIncMode Config.negQuotMode (retargetInputs s) with
      | .target r =>
        .success (.tg dst r) (retargetFlags Config.heightIncMode Config.negQuotMode (retargetInputs s) r)
      | .config => .error .config
      | .epoch => .error .epoch := by
  cases h : nextTarget Config.heightIncMode Config.negQuotMode (retargetInputs s) <;> simp [retargetOutcome, h]

/-- A transaction presents no new cycles. -/
theorem serveCycle_inputs (a : Option Access) (s : State) : (serveCycle a s).inputs = s.inputs := by
  rcases serveCycle_cases a s with e | ⟨x, _, e⟩ <;> rw [e]
  show (accessEffect x s).inputs = _
  rcases accessEffect_cases x s with e | ⟨r, v, e⟩ <;> rw [e]
  rcases hostWriteReg_cases r v s with ⟨_, e⟩ | ⟨_, _, e⟩ | ⟨_, hb, e⟩ | ⟨_, _, hb, e⟩ <;> rw [e]
  · rfl
  · rfl
  · rfl
  · exact (writeReg_keeps r v s).2.2.2.2.1

end Sys2Proof.Laws
end

