-- ==== Sys2Proof/Laws/Frames.lean ====
section
/-!
SUPPORT. What every commit leaves, in the terms of Safety: the engine and STATUS, and the frame of each kind
of destination over the whole window (R38, R173).
-/

namespace Sys2Proof.Laws

open Sys2Proof.Machine Sys2Proof.Safety

theorem committed_success (d : Dest) (f : Flags) (s : State) :
    committed none s (commit (.success d f) s) :=
  have h := commit_ends (.success d f) s
  ⟨h.1, h.2.1, rfl, h.2.2.1, h.2.2.2.1, h.2.2.2.2.1⟩

theorem committed_error (e : CmdError) (s : State) : committed (some e) s (commit (.error e) s) :=
  have h := commit_ends (.error e) s
  ⟨h.1, h.2.1, rfl, h.2.2.1, h.2.2.2.1, h.2.2.2.2.1⟩

/-- A failed command changes no register but STATUS (R173). -/
theorem sameWindow_error (e : CmdError) (s : State) : sameWindowExcept ofNothing s (raiseError e s) := by
  intro r h1 h2 _
  exact readReg_congr r rfl rfl rfl rfl rfl rfl rfl rfl rfl (fun h => absurd h h1) (fun _ => rfl)

/-- A command that writes TG[i] changes no other register but FLAGS and STATUS (R38). -/
theorem sameWindow_tg (i : Fin 4) (v : Int) (f : Flags) (s : State) :
    sameWindowExcept (ofTg i) s (commitSuccess (.tg i v) f s) := by
  intro r h1 h2 h3
  have hT : ∀ y, y ≠ .tg i → readTarget y (commitSuccess (.tg i v) f s) = readTarget y s := by
    intro y hy
    cases y with
    | powLimit => rfl
    | tg j =>
      have : i ≠ j := fun h => hy (by rw [h])
      simp [readTarget, this]
  cases r with
  | sign x =>
    have : x ≠ .tg i := fun h => h3 (.inl (by rw [h]))
    simp [readReg, hT x this]
  | mag x k =>
    have : x ≠ .tg i := fun h => h3 (.inr ⟨k, by rw [h]⟩)
    simp [readReg, hT x this]
  | status => exact absurd rfl h1
  | flags => exact absurd rfl h2
  | hdr a b => cases a <;> rfl
  | _ => rfl

/-- A command that writes CB[i] changes no other register but FLAGS and STATUS (R38). -/
theorem sameWindow_cb (i : Fin 4) (v : Word) (f : Flags) (s : State) :
    sameWindowExcept (ofCb i) s (commitSuccess (.cb i v) f s) := by
  intro r h1 h2 h3
  cases r with
  | cb j =>
    have : i ≠ j := fun h => h3 (by rw [ofCb, h])
    simp [readReg, this]
  | sign x => cases x <;> rfl
  | mag x k => cases x <;> rfl
  | status => exact absurd rfl h1
  | flags => exact absurd rfl h2
  | hdr a b => cases a <;> rfl
  | _ => rfl

/-- A command that writes no destination changes no register but FLAGS and STATUS (R38). -/
theorem sameWindow_none (f : Flags) (s : State) : sameWindowExcept ofNothing s (commitSuccess .nothing f s) := by
  intro r h1 h2 _
  exact readReg_congr r rfl rfl rfl rfl rfl rfl rfl rfl rfl (fun h => absurd h h1) (fun h => absurd h h2)

/-- What a step does once the run is over: a cycle under `rst`, or one that only passes; it stays over (R221). -/
theorem step_of_runOver {s : State} (h : runOver s) :
    (nextCycle s).access = none ∧ runOver (takeCycle s) ∧
    (((nextCycle s).rst = true ∧ step s = .next (resetCycle none (takeCycle s))) ∨
      ((nextCycle s).rst = false ∧ step s = .next (takeCycle s))) := by
  obtain ⟨hl, he⟩ := h
  have ha : (nextCycle s).access = none ∧ lastTransactionMade (takeCycle s) = true := by
    unfold lastTransactionMade at *
    cases hi : s.inputs with
    | nil => simp [nextCycle, takeCycle, hi, quietCycle]
    | cons c cs => rw [hi] at hl; simpa [nextCycle, takeCycle, hi] using hl
  refine ⟨ha.1, ⟨ha.2, he⟩, ?_⟩
  rcases step_cases s with ⟨hr, h⟩ | ⟨hr, _, h⟩ | ⟨_, _, hw, _⟩
  · left; rw [h, ha.1]; exact ⟨hr, rfl⟩
  · right; rw [h, ha.1]; exact ⟨hr, rfl⟩
  · rw [he] at hw; cases hw

end Sys2Proof.Laws
end

