-- ==== Sys2Proof/Laws/PerInstr.lean ====
section
/-!
SUPPORT. For every command, as syntax: it is well formed, its word decodes to it, and the line it is written
as gives it back. One lemma per constructor.
-/

namespace Sys2Proof.Laws.WellFormedAndEncoded

/-- The command is well formed (R99), its word decodes to it (R90, R95), and its line gives it (R99). -/
def Statement (i : Instr) : Prop :=
  i.wellFormed = true ∧ decodeWord (encodeInstr i) = .ok i ∧ Machine.lineInstr i.asmLine = some i

theorem nop : Statement .nop := by
  unfold Statement; decide

theorem decode (dst src : Fin 4) : Statement (.decode dst src) := by
  revert dst src; unfold Statement; decide

theorem encode (dst src : Fin 4) : Statement (.encode dst src) := by
  revert dst src; unfold Statement; decide

theorem retarget (dst : Fin 4) : Statement (.retarget dst) := by
  revert dst; unfold Statement; decide

end Sys2Proof.Laws.WellFormedAndEncoded
end

