-- ==== Sys2Proof/Tests/Slice0.lean ====
section
/-!
SUPPORT. The model's own tests. Expected values are those of spec/95_test_vectors.md and of the rules named;
none is the model's own answer. A `witness_` theorem shows that the hypotheses of the statement it is named
after are met together, at the boundary values of each clause.
-/

namespace Sys2Proof.Tests

open Sys2Proof.Machine Sys2Proof.Safety

set_option Elab.async false

/-! ## Decoding: words written out field by field (R90): high reserved, S, low reserved, D, OP -/

theorem test_word_nop :
    decodeWord (0#18 ++ 0b00#2 ++ 0b00#2 ++ 0b00#2 ++ 0b00000000#8) = .ok .nop := by decide

theorem test_word_decode_tg1_cb2 :
    decodeWord (0#18 ++ 0b10#2 ++ 0b00#2 ++ 0b01#2 ++ 0b00000001#8) = .ok (.decode 1 2) := by decide

theorem test_word_encode_cb3_tg2 :
    decodeWord (0#18 ++ 0b10#2 ++ 0b00#2 ++ 0b11#2 ++ 0b00000010#8) = .ok (.encode 3 2) := by decide

theorem test_word_retarget_tg3 :
    decodeWord (0#18 ++ 0b00#2 ++ 0b00#2 ++ 0b11#2 ++ 0b00000011#8) = .ok (.retarget 3) := by decide

/-- R98: words that are no command; V-L2-C7 for the last. -/
theorem test_words_illegal :
    decodeWord 0x00000004#32 = .error .reservedOpcode ∧ decodeWord 0x00000401#32 = .error .mustBeZero ∧
    decodeWord 0x00001003#32 = .error .mustBeZero ∧ decodeWord 0x00000100#32 = .error .mustBeZero ∧
    decodeWord 0x80000001#32 = .error .mustBeZero ∧ decodeWord 0x000000FF#32 = .error .reservedOpcode := by
  decide

/-- R62: the byte at the lowest address is bits 7:0. -/
theorem test_bytes_little_endian :
    decodeBytes [0x01#8, 0x21#8, 0x00#8, 0x00#8, 0xFF#8] = .ok (.decode 1 2, [0xFF#8]) ∧
    decodeBytes [0x01#8, 0x21#8, 0x00#8] = .error .truncated := by decide

theorem test_table_words :
    decodeTableWord 32 0x00000000 = some .nop ∧ decodeTableWord 32 0x00002302 = some (.encode 3 2) ∧
    decodeTableWord 32 0x00000004 = none := by decide

/-! ## Well-formedness of a line (R99): one ill-formed line for each check -/

theorem test_line_index_four_refused :
    (AsmLine.mk .decode [.tg 4, .cb 0]).wellFormed = false ∧
    (AsmLine.mk .encode [.cb 0, .tg 4]).wellFormed = false ∧
    (AsmLine.mk .retarget [.tg 4]).wellFormed = false := by decide

theorem test_line_wrong_file_refused :
    (AsmLine.mk .decode [.cb 0, .tg 0]).wellFormed = false ∧
    (AsmLine.mk .encode [.tg 0, .cb 0]).wellFormed = false ∧
    (AsmLine.mk .retarget [.cb 0]).wellFormed = false := by decide

theorem test_line_wrong_count_refused :
    (AsmLine.mk .nop [.tg 0]).wellFormed = false ∧ (AsmLine.mk .decode [.tg 0]).wellFormed = false ∧
    (AsmLine.mk .retarget [.tg 0, .tg 1]).wellFormed = false := by decide

theorem test_line_index_three_accepted :
    (AsmLine.mk .decode [.tg 3, .cb 3]).wellFormed = true ∧ (Instr.encode 3 3).wellFormed = true := by decide

/-! ## Small states -/

/-- What a step or a command leaves, looked at through `f`; nothing where it does not go on. -/
def seen {α : Type} (f : State → α) : Host.Outcome State Fault Refusal → Option α
  | .next t => some (f t)
  | .fault _ => none
  | .refused _ => none

/-- Reset, with CB1 holding a word. -/
def withCb (c : Word) : State := { State.reset with cb := #v[0#32, c, 0#32, 0#32] }

/-- Reset, with TG0 holding a value as `put` writes it, and CB1 = 0xDEADBEEF (95_test_vectors.md, ENCODE). -/
def withTg (v : Int) : State := writeTg 0 (putTarget v) (withCb 0xDEADBEEF#32)

/-- Reset, with headers: start height, end height, end bits, end time (start time 0). -/
def withHeaders (hS hE bE tE : Word) : State :=
  { State.reset with
    hdrS := { height := hS, bits := 0#32, timeLo := 0#32, timeHi := 0#32 }
    hdrE := { height := hE, bits := bE, timeLo := tE, timeHi := 0#32 } }

/-- A state with a word in flight. -/
def flying (w : Word) (s : State) : State := { s with cmd := w, engine := .busy w }

/-- A cycle that presents a transaction and in which the engine commits. -/
def commitWith (a : Access) : Cycle := { rst := false, commit := true, access := some a }

/-! ## One step of each command -/

/-- V-L2-C2: NOP after a FLAGS of 0x020. -/
theorem test_nop_clears_flags :
    seen (fun t => (flagsWord t.flags, statusWord t))
      (step ({ State.reset with flags := { Flags.clear with due := true } }.withFetchWord 32 0x00000000)) =
    some (0#32, 2#32) := by decide +kernel

/-- V-L2-D7: `decode tg0, cb1` of 0x01FEDCBA. -/
theorem test_decode_exponent_one_negative :
    seen (fun t => (targetValue (readTg 0 t), flagsWord t.flags))
      (step ((withCb 0x01FEDCBA#32).withFetchWord 32 0x00001001)) = some (-0x7E, 0x006#32) := by decide +kernel

/-- V-L2-D6: a sign with a zero result. -/
theorem test_decode_negative_zero :
    seen (fun t => (readTg 0 t, flagsWord t.flags))
      (step ((withCb 0x01803456#32).withFetchWord 32 0x00001001)) = some (Target.zero, 0x005#32) := by
  decide +kernel

/-- V-L2-E14: `encode cb1, tg0` of 0x800001. -/
theorem test_encode_overflow_drops_a_byte :
    seen (fun t => (readCb 1 t, flagsWord t.flags)) (step ((withTg 0x800001).withFetchWord 32 0x00000102)) =
    some (0x04008000#32, 0x018#32) := by decide +kernel

/-- V-L2-E24: `encode cb1, tg0` of 2^2039. -/
theorem test_encode_out_of_range :
    seen (fun t => (readCb 1 t, statusWord t)) (step ((withTg (2 ^ 2039)).withFetchWord 32 0x00000102)) =
    some (0xDEADBEEF#32, 0x00000202#32) := by decide +kernel

/-- V-L2-R4: `retarget tg1` with a raw span of 0. -/
theorem test_retarget_low_clamp :
    seen (fun t => (targetValue (readTg 1 t), flagsWord t.flags))
      (step ((withHeaders 0#32 2015#32 0x1800D0F6#32 0#32).withFetchWord 32 0x00000103)) =
    some (0x343D8 * 2 ^ 164, 0x060#32) := by decide +kernel

/-- V-L2-R15: `retarget tg1` under STRICT_EPOCH with the wrong start height. -/
theorem test_retarget_strict_epoch :
    seen (fun t => (readTg 1 t, statusWord t))
      (step ({ withHeaders 7#32 2015#32 0x1800D0F6#32 1209600#32 with
          ctrl := { irqEn := false, strictEpoch := true } }.withFetchWord 32 0x00000103)) =
    some (Target.zero, 0x00000402#32) := by decide +kernel

/-- V-L2-C3: an illegal word. -/
theorem test_illegal_word :
    seen (fun t => (statusWord t, t.cmd)) (step (State.reset.withFetchWord 32 0x00000004)) =
    some (0x00000102#32, 4#32) := by decide +kernel

/-! ## Hypotheses met: encoding -/

theorem witness_DecoderFollowsOpcodeTable :
    decodeWord 0x00002101#32 = .ok (.decode 1 2) ∧
    (OpcodeRow.mk .decode 0x00000001#32 0xFFFFCCFF#32) ∈ opcodeTable ∧
    (OpcodeRow.mk .decode 0x00000001#32 0xFFFFCCFF#32).selects 0x00002101#32 = true := by decide

theorem witness_IllegalWordsExactly :
    decodeWord 0x00000000#32 = .ok .nop ∧ decodeWord 0x00003301#32 = .ok (.decode 3 3) ∧
    decodeWord 0x00003302#32 = .ok (.encode 3 3) ∧ decodeWord 0x00000303#32 = .ok (.retarget 3) := by decide

theorem witness_ByteLanesCarryTheWord :
    decodeWord 0x00003302#32 = .ok (.encode 3 3) ∧ decodeWord 0xFFFFFFFF#32 = .error .reservedOpcode ∧
    0x00003302 < 2 ^ 32 ∧ 0xFFFFFFFF < 2 ^ 32 := by decide

theorem witness_AssemblerAcceptsExactlyCommands :
    assemble "encode cb3, tg2" = some 0x00002302#32 := by decide +kernel

/-! ## Hypotheses met: the step and reset -/

theorem witness_StepRunsTheDecodedCommand :
    (let s := { flying 0x00000103#32 State.reset with inputs := [commitWith (.read 0x1FFC .bits32)] }
     s.engine = .busy 0x00000103#32 ∧ decodeWord 0x00000103#32 = .ok (.retarget 1) ∧
     (nextCycle s).rst = false ∧ (nextCycle s).commit = true) ∧
    (flying 0x00000103#32 State.reset).inputs = [] ∧
    (let s := { flying 0x80000001#32 State.reset with inputs := [commitWith (.read 0x0000 .bits32)] }
     s.engine = .busy 0x80000001#32 ∧ decodeWord 0x80000001#32 = .error .mustBeZero ∧
     (nextCycle s).rst = false ∧ (nextCycle s).commit = true) ∧
    ((nextCycle State.reset).rst = false ∧ State.reset.engine = .idle) ∧
    (let s := { flying 0x00000103#32 State.reset with inputs := [accessCycle (.read 0x0000 .bits32)] }
     (nextCycle s).rst = false ∧ (nextCycle s).commit = false ∧
     (nextCycle s).access = some (.read 0x0000 .bits32) ∧ 0x0000 % 4 = 0 ∧ 0x0000 < 0x2000) ∧
    (let s := { State.reset with inputs := [commitWith (.read 0x1FFC .bits32)] }
     (nextCycle s).rst = false ∧ s.engine = .idle ∧
     (nextCycle s).access = some (.read 0x1FFC .bits32) ∧ 0x1FFC % 4 = 0 ∧ 0x1FFC < 0x2000) := by decide +kernel

theorem witness_ResetCycleAbandonsEverything :
    (let s := { flying 0x00000103#32 State.reset with
        inputs := [{ rst := true, commit := true, access := some (.read 0x1FFC .bits32) }] }
     (nextCycle s).rst = true ∧ (nextCycle s).access = some (.read 0x1FFC .bits32) ∧ 0x1FFC % 4 = 0 ∧
     0x1FFC < 0x2000) ∧
    (let s := { State.reset with inputs := [{ rst := true, commit := false, access := none }] }
     (nextCycle s).rst = true ∧ (nextCycle s).access = none) := by decide +kernel

/-! ## Hypotheses met: values and the codec -/

theorem witness_PutAndValueAgree :
    (2 ^ 2048 - 1 : Int).natAbs < 2 ^ 2048 ∧ (-(2 ^ 2048 - 1) : Int).natAbs < 2 ^ 2048 := by decide +kernel

theorem witness_LengthsAreLeast :
    0 < 2 ^ 0 ∧ 0 < 256 ^ 0 ∧ 255 < 2 ^ 8 ∧ 255 < 256 ^ 1 ∧ 256 < 2 ^ 9 ∧ 256 < 256 ^ 2 := by decide

theorem witness_DecodeIsTheFormula : (0x20800000#32 : Word).toNat % 2 ^ 23 = 0 := by decide

theorem witness_DecodeNegativeZeroIsPositive :
    ((readCb 1 (withCb 0xFF800000#32)).getLsbD 23 = true ∧ compactMantissa (readCb 1 (withCb 0xFF800000#32)) = 0) ∧
    ((readCb 1 (withCb 0x0280007F#32)).getLsbD 23 = true ∧
      compactExponent (readCb 1 (withCb 0x0280007F#32)) < 3 ∧
      compactMantissa (readCb 1 (withCb 0x0280007F#32)) /
        2 ^ (8 * (3 - compactExponent (readCb 1 (withCb 0x0280007F#32)))) = 0) := by decide +kernel

/-- The clauses of the flags: NEG with SIGN_IN, SIGN_IN without NEG, and a zero value. -/
theorem witness_DecodeWritesTargetAndFlags :
    compactDecode (readCb 1 (withCb 0xFFFFFFFF#32)) < 0 ∧
    compactDecode (readCb 1 (withCb 0x00800000#32)) = 0 ∧
    (readCb 1 (withCb 0x00800000#32)).getLsbD 23 = true := by decide +kernel

theorem witness_EncodeZeroIsZeroWord :
    (readTg 2 (writeTg 2 { sign := true, mag := 0#2048 } State.reset)).mag = 0#2048 := by decide +kernel

/-- V-L2-E21 and V-L2-E23: the largest exponent without and with the correction; V-L2-E3 the smallest. -/
theorem witness_EncodedWordsAreCanonical :
    compactEncode (0x7F * 2 ^ 2032) = .word 0xFF7F0000#32 false ∧
    compactEncode (0x80 * 2 ^ 2024) = .word 0xFF008000#32 true ∧
    compactEncode 1 = .word 0x01010000#32 false := by decide +kernel

/-- V-L2-E22, V-L2-E16, V-L2-E1. -/
theorem witness_EncodeTruncatesMagnitude :
    compactEncode (2 ^ 2039 - 1) = .word 0xFF7FFFFF#32 false ∧
    compactEncode 0x80000000 = .word 0x05008000#32 true ∧ compactEncode 0 = .word 0#32 false := by
  decide +kernel

/-- V-L1-3: 0x7FFFFF00 and 0x123456. -/
theorem witness_CodecRoundTrips :
    ((0x7FFFFF00 : Int).natAbs = 0x7FFFFF * 256 ^ 1 ∧ 0x7FFFFF < 2 ^ 23 ∧
      compactEncode 0x7FFFFF00 = .word 0x047FFFFF#32 false) ∧
    ((0 : Int) < 0x123456 ∧ compactEncode 0x123456 = .word 0x03123456#32 false ∧
      compactDecode 0x03123456#32 = 0x123456) ∧
    (compactEncode 0 = .word 0#32 false ∧ compactEncode (-1) = .word 0x01810000#32 false) := by decide +kernel

/-- Below the correction at 255 bytes, at it, and 256 bytes: V-L2-E22, V-L2-E24, V-L2-E25. -/
theorem witness_EncodeRangeExactly :
    ((2 ^ 2039 - 1 : Int).natAbs < 2 ^ 2048 ∧ compactEncode (2 ^ 2039 - 1) ≠ .range) ∧
    ((2 ^ 2039 : Int).natAbs < 2 ^ 2048 ∧ compactEncode (2 ^ 2039) = .range ∧ bytelen (2 ^ 2039) = 255) ∧
    (compactEncode (-(2 ^ 2048 - 1)) = .range ∧ bytelen (2 ^ 2048 - 1) = 256) := by decide +kernel

theorem witness_EncodeWritesWordAndFlags :
    (targetValue (readTg 0 (withTg (2 ^ 2039 - 1)))).natAbs < 2 ^ 2039 ∧
    (targetValue (readTg 0 (withTg (-(2 ^ 2039 - 1))))).natAbs < 2 ^ 2039 := by decide +kernel

theorem witness_EncodeOutOfRangeChangesOnlyStatus :
    2 ^ 2039 ≤ (targetValue (readTg 0 (withTg (2 ^ 2039)))).natAbs ∧
    2 ^ 2039 ≤ (targetValue (readTg 0 (withTg (-(2 ^ 2048 - 1))))).natAbs := by decide +kernel

/-! ## Hypotheses met: retarget -/

theorem witness_HeightReadingsDifferOnce : 0xFFFFFFFE < 2 ^ 32 ∧ 0xFFFFFFFF < 2 ^ 32 := by decide

/-- NextTarget's inputs of a small state, with another TIMESPAN. -/
def spanInputs (t tE : Word) : RetargetInputs :=
  retargetInputs { withHeaders 0#32 2015#32 0x04923456#32 tE with timespan := t }

/-- A raw span of 10 saturated into [1, 16], the clamp's own bounds for T = 4, and one above them. -/
theorem witness_RawSpanIsExact :
    (let x := spanInputs 4#32 10#32
     let y := spanInputs 4#32 10#32
     y.T = x.T ∧ (1 : Int) ≤ spanMin x ∧ spanMax x ≤ 16 ∧ rawSpan y = max 1 (min (rawSpan x) 16)) ∧
    (let x := spanInputs 4#32 99#32
     let y := spanInputs 4#32 16#32
     y.T = x.T ∧ (1 : Int) ≤ spanMin x ∧ spanMax x ≤ 16 ∧ rawSpan y = max 1 (min (rawSpan x) 16)) := by
  decide +kernel

theorem witness_SpanClampBounds :
    (1 ≤ (spanInputs 3#32 0#32).T ∧ (spanInputs 3#32 0#32).T ≤ 3 ∧ rawSpan (spanInputs 3#32 0#32) ≤ 0) ∧
    4 ≤ (spanInputs 4#32 0#32).T ∧ (spanInputs 1209600#32 0#32).T = 1209600 := by decide +kernel

/-- A negative product that T does not divide (V-L2-R12), one it does, and a product of 0. -/
theorem witness_QuotientReadings :
    (let x := spanInputs 1209601#32 1209600#32
     let p := compactDecode x.bE * clampedSpan x
     0 < x.T ∧ p < 0 ∧ ¬ (x.T : Int) ∣ p) ∧
    (let x := spanInputs 1#32 4#32
     let p := compactDecode x.bE * clampedSpan x
     0 < x.T ∧ p < 0 ∧ (x.T : Int) ∣ p) ∧
    (let x := spanInputs 3#32 0#32
     let p := compactDecode x.bE * clampedSpan x
     0 < x.T ∧ 0 ≤ p) := by decide +kernel

/-- V-L2-R17's inputs, and a pass-through. -/
theorem witness_RetargetNeverOverflows :
    (let x := retargetInputs (withHeaders 0#32 2015#32 0xFFFFFFFF#32 4838400#32)
     0 < x.T ∧ nextTarget .exact .trunc x = .target (-(0x1FFFFFC * 2 ^ 2016))) ∧
    nextTarget .wrap32 .floor (retargetInputs (withHeaders 0#32 5#32 0x1E00FFFF#32 0#32)) =
      .target (0xFFFF * 2 ^ 216) := by decide +kernel

theorem witness_RetargetPassesThroughWhenNotDue :
    (withHeaders 0#32 5#32 0x1E00FFFF#32 0#32).epochLen.toNat ≠ 0 ∧
    heightPlusOne Config.heightIncMode (withHeaders 0#32 5#32 0x1E00FFFF#32 0#32).hdrE.height.toNat %
      (withHeaders 0#32 5#32 0x1E00FFFF#32 0#32).epochLen.toNat ≠ 0 := by decide +kernel

/-- V-L2-R4's state, and the same under STRICT_EPOCH, where the start height is the expected one. -/
theorem witness_RetargetComputesNextTarget :
    let s := { withHeaders 0#32 2015#32 0x1800D0F6#32 0#32 with ctrl := { irqEn := false, strictEpoch := true } }
    let hp1 := heightPlusOne Config.heightIncMode s.hdrE.height.toNat
    s.epochLen.toNat ≠ 0 ∧ hp1 % s.epochLen.toNat = 0 ∧ (s.timespan.toNat : Int) ≠ 0 ∧
    s.ctrl.strictEpoch = true ∧
    decide ((s.hdrS.height.toNat : Int) ≠ (hp1 : Int) - (s.epochLen.toNat : Int)) = false := by
  decide +kernel

theorem witness_RetargetChecksInOrder :
    (flying 0x00001103#32 State.reset).engine = .busy 0x00001103#32 ∧
    decodeWord 0x00001103#32 = .error .mustBeZero ∧
    seen (fun t => t.status.err) (exec (.retarget 1) { State.reset with epochLen := 0#32 }) =
      some (some .config) := by decide +kernel

theorem witness_RetargetFlagsOfTheRule :
    seen (fun t => (t.status.err, t.flags.due))
      (exec (.retarget 1) (withHeaders 0#32 2015#32 0x1800D0F6#32 0#32)) = some (none, true) ∧
    seen (fun t => (t.status.err, t.flags.due))
      (exec (.retarget 1) (withHeaders 0#32 5#32 0x1800D0F6#32 0#32)) = some (none, false) := by decide +kernel

theorem witness_NextTargetProperties :
    (let x := retargetInputs (withHeaders 0#32 2015#32 0x1D00FFFF#32 4838400#32)
     0 < x.T ∧ retargetDue .exact x = true ∧ nextTarget .exact .trunc x = .target (2 ^ 224 - 1) ∧
     0 ≤ compactDecode x.bE) ∧
    (let x := retargetInputs (withHeaders 0#32 0xFFFFFFFF#32 0x1800D0F6#32 1209600#32)
     retargetDue .wrap32 x = true ∧ nextTarget .wrap32 .floor x = .target (0xD0F6 * 2 ^ 168)) ∧
    sameOperands State.reset { State.reset with cmd := 1#32 } := by
  refine ⟨by decide +kernel, by decide +kernel, rfl, rfl, rfl, rfl, rfl, rfl, rfl, rfl⟩

/-! ## Hypotheses met: errors and the window -/

theorem witness_ErrorsEachCommandRaises :
    seen (fun t => t.status.err) (exec .nop State.reset) = some none ∧
    seen (fun t => t.status.err) (exec (.decode 0 0) State.reset) = some none ∧
    seen (fun t => t.status.err) (exec (.encode 0 0) (withTg (2 ^ 2039))) = some (some .range) ∧
    seen (fun t => t.status.err) (exec (.retarget 0) { withHeaders 0#32 2015#32 0#32 0#32 with timespan := 0#32 }) =
      some (some .config) ∧
    seen (fun t => t.status.err) (engineTurn (flying 4#32 State.reset)) = some (some .illegal) := by
  decide +kernel

theorem witness_FailedCommandsChangeOnlyStatus :
    seen (fun t => t.status.err) (exec (.encode 1 0) (withTg (2 ^ 2039))) = some (some .range) := by
  decide +kernel

theorem witness_IllegalWordsCommitErrIllegal :
    State.reset.engine = .idle ∧ (flying 0x80000001#32 State.reset).engine = .busy 0x80000001#32 ∧
    decodeWord 0x80000001#32 = .error .mustBeZero := by
  decide +kernel

theorem witness_WindowMapOfTheSpec :
    (windowReg 0x0000 ≠ .reserved ∧ windowReg 0x19FC ≠ .reserved) ∧ 0x1FFC % 4 = 0 ∧ 0x1FFC < 0x2000 ∧
    windowReg 0x1FFC = .reserved ∧ windowReg 0x001C = .reserved ∧ windowReg 0x10FC = .reserved ∧
    windowReg 0x1100 = .mag (.tg 0) 0 ∧ windowReg 0x1A00 = .reserved := by decide

/-- V-L2-C15 to V-L2-C19, and the first offset past the window. -/
theorem witness_OnlyAlignedWordsAreServed :
    (accessWidth (.read 0x1FFC .bits32) = .bits32 ∧ 0x1FFC % 4 = 0 ∧ 0x1FFC < 0x2000) ∧
    served (.read 0x0000 .bits8) = false ∧ served (.read 0x0002 .bits32) = false ∧
    served (.write 0x2000 .bits32 0#32) = false := by decide

theorem witness_ReservedReadsZeroIgnoresWrites :
    (0x1FFC % 4 = 0 ∧ 0x1FFC < 0x2000 ∧ windowReg 0x1FFC = .reserved) ∧ State.reset.engine = .idle ∧
    (flying 0#32 State.reset).engine = .busy 0#32 ∧ 0xFFFFFFFF#32 &&& 0x3#32 = 0x3#32 &&& 0x3#32 ∧
    0xFFFFFFFF#32 &&& 0x6#32 = 0x6#32 &&& 0x6#32 ∧ 0xFFFFFFFE#32 &&& 0x1#32 = 0#32 &&& 0x1#32 := by
  decide +kernel

theorem witness_WritesReadBack : State.reset.engine = .idle := rfl

theorem witness_WritesTouchOneWord :
    State.reset.engine = .idle ∧ WindowReg.mag (.tg 0) 63 ≠ .cmd ∧ WindowReg.mag (.tg 0) 63 ≠ .status ∧
    WindowReg.mag (.tg 0) 62 ≠ .mag (.tg 0) 63 ∧
    (WindowReg.flags ≠ .cmd ∧ WindowReg.flags ≠ .status ∧ windowReg 0x0010 = .flags) := by decide

theorem witness_IdIsConstant :
    State.reset.engine = .idle ∧ (flying 3#32 State.reset).engine = .busy 3#32 := by decide

theorem witness_TargetWordsCarryTheValue :
    State.reset.engine = .idle ∧ (2 ^ 2048 - 1 : Int).natAbs < 2 ^ 2048 ∧
    (-(2 ^ 2048 - 1) : Int).natAbs < 2 ^ 2048 ∧ WindowReg.sign (.tg 1) ≠ .sign (.tg 0) ∧
    ∀ k, WindowReg.sign (.tg 1) ≠ .mag (.tg 0) k := by decide +kernel

theorem witness_TimeWordsCarryTheTimestamp :
    State.reset.engine = .idle ∧ -(2 ^ 63) ≤ (-(2 ^ 63) : Int) ∧ (-(2 ^ 63) : Int) ≤ 2 ^ 63 - 1 ∧
    -(2 ^ 63) ≤ (2 ^ 63 - 1 : Int) := by decide

/-! ## Hypotheses met: the command's life -/

theorem witness_IssueAcceptsAnyWord : State.reset.engine = .idle := rfl

theorem witness_WritesWhileBusyAreDropped :
    (flying 0x00000001#32 State.reset).engine = .busy 0x00000001#32 ∧
    (0x0000 % 4 = 0 ∧ 0x0000 < 0x2000 ∧ 0x0000 ≠ 0x0008) ∧ (0x1FFC % 4 = 0 ∧ 0x1FFC < 0x2000 ∧ 0x1FFC ≠ 0x0008) ∧
    ¬ (AccessWidth.bits32 = .bits32 ∧ 0x0021 % 4 = 0 ∧ 0x0021 < 0x2000) ∧
    ¬ (AccessWidth.bits32 = .bits32 ∧ 0x2000 % 4 = 0 ∧ 0x2000 < 0x2000) ∧
    ¬ (AccessWidth.bits8 = .bits32 ∧ 0x0008 % 4 = 0 ∧ 0x0008 < 0x2000) := by decide +kernel

/-- Each bit of the write at 1 and at 0, as in V-L2-C8 and V-L2-C12. -/
theorem witness_StatusWritesClearDoneAndWdrop :
    ((2#32).getLsbD 1 = true ∧ (2#32).getLsbD 2 = false) ∧ ((4#32).getLsbD 1 = false ∧ (4#32).getLsbD 2 = true) ∧
    WindowReg.reserved ≠ .status := by decide

theorem witness_CommitComesBeforeSameCycleAccess :
    (let s := { flying 0x00000000#32 State.reset with inputs := [commitWith (.write 0x0008 .bits32 2#32)] }
     s.engine = .busy 0x00000000#32 ∧ decodeWord 0x00000000#32 = .ok .nop ∧
     nextCycle s = commitWith (.write 0x0008 .bits32 2#32)) ∧
    (commitWith (.read 0x1FFC .bits32)).access = some (.read 0x1FFC .bits32) := by decide +kernel

theorem witness_IssueStaysBusyThatCycle :
    let s := { State.reset with inputs := [commitWith (.write 0x000C .bits32 1#32)] }
    s.engine = .idle ∧ (nextCycle s).rst = false ∧ (nextCycle s).access = some (.write 0x000C .bits32 1#32) := by
  decide +kernel

theorem witness_IrqIsEnabledDone :
    seen irq (exec .nop { State.reset with ctrl := { irqEn := true, strictEpoch := false } }) = some true ∧
    State.reset.engine = .idle ∧ (1#32).getLsbD 0 = true ∧ (2#32).getLsbD 1 = true ∧ (2#32).getLsbD 0 = false := by
  decide +kernel

/-! ## Hypotheses met: whole runs -/

theorem witness_EveryStepKeepsInvariant :
    Inv (flying 0x00000103#32 State.reset) ∧
    seen statusWord (step (flying 0x00000103#32 State.reset)) = some 2#32 := by
  exact ⟨⟨by decide, by decide⟩, by decide +kernel⟩

theorem witness_OutcomeIsFixedAtIssue :
    let c := accessCycle (.write 0x0020 .bits32 0x12345678#32)
    let s := { flying 0x00000001#32 State.reset with inputs := [c] ++ quietCycle :: [] }
    s.engine = .busy 0x00000001#32 ∧ s.inputs = [c] ++ quietCycle :: [] ∧ ∀ c' ∈ [c], waits c' := by
  refine ⟨rfl, rfl, ?_⟩
  unfold waits
  decide

theorem witness_SequentialCommandsCompose :
    let s := { State.reset with
      inputs := [Instr.retarget 1, Instr.encode 0 1].flatMap issueThenCommit ++ [] }
    s.engine = .idle ∧ s.inputs = [Instr.retarget 1, Instr.encode 0 1].flatMap issueThenCommit ++ [] :=
  ⟨rfl, rfl⟩

/-- No cycle left; a cycle without `rst` left; a cycle under `rst` left, after the last transaction. -/
theorem witness_EveryRunEnds :
    runOver State.reset ∧
    (let s := { State.reset with inputs := [quietCycle] }
     runOver s ∧ ∀ c ∈ s.inputs, noReset c) ∧
    runOver { State.reset with inputs := [{ rst := true, commit := false, access := none }] } := by
  unfold noReset; decide

/-- R221: a cycle under `rst` after the last transaction and the commit leaves the end state alone, and one in
which a transaction is still to come, or the engine is Busy, does not end the run. -/
theorem test_end_state_is_before_a_later_reset :
    seen (fun t => (statusWord t, t.inputs.length))
      (endState { flying 0#32 State.reset with
        inputs := [accessCycle (.read 0x0008 .bits32), quietCycle, { rst := true, commit := false, access := none }] }) =
    some (2#32, 1) := by decide +kernel

end Sys2Proof.Tests
end

/-!
Proofs of the statements of 00_scope.md: the lengths of R12.
-/

namespace Sys2Proof.Proofs

open Sys2Proof.Machine Sys2Proof.Laws

/-! ## Lengths -/

/-- The ceiling of R12 without a division: `bytelen a` is the one `q` with `bitlen a ≤ 8 * q < bitlen a + 8`. -/
theorem bytelen_is_ceil_bitlen (a : Nat) :
    8 * bytelen a < bitlen a + 8 ∧ bitlen a ≤ 8 * bytelen a := by
  unfold bytelen; omega

/-- A length in bytes counts digits in base 256, as `bytelen_le_iff` counts them in groups of eight bits. -/
theorem bytelen_le_iff_lt_256_pow (a k : Nat) : bytelen a ≤ k ↔ a < 256 ^ k := by
  have base : (256 : Nat) ^ k = 2 ^ (8 * k) := (pow_mul 2 8 k).symm
  rw [base, bytelen_le_iff]

/-- Settles O12: each length is below or equal to `k` exactly when `a` fits in `k` digits, so it is the least
such `k`. -/
theorem lengthsAreLeast : Obligations.LengthsAreLeast := by
  intro a
  obtain ⟨ceil_lt, ceil_ge⟩ := bytelen_is_ceil_bitlen a
  exact ⟨lt_two_pow_bitlen a, fun k => (bitlen_le_iff a k).2, ceil_lt, ceil_ge,
    (bytelen_le_iff_lt_256_pow a _).1 le_rfl, fun k => (bytelen_le_iff_lt_256_pow a k).2⟩

end Sys2Proof.Proofs

/-!
Proofs of the statements of 10_state.md: the timestamp of R31, the register ID of R22 and the reset values of R40.
-/

namespace Sys2Proof.Proofs

open Sys2Proof.Machine Sys2Proof.Laws

/-! ## The timestamp of a header (R31) -/

/-- A word as a signed number: bit 31 counts negatively. -/
theorem toInt_word (w : Word) : w.toInt = (w.toNat : Int) - (if w.getLsbD 31 then 2 ^ 32 else 0) := by
  rw [BitVec.toInt_eq_msb_cond, BitVec.msb_eq_getLsbD_last]
  cases w.getLsbD 31 <;> simp

/-- The sign of a timestamp is that of its high word; the low word is an unsigned digit. -/
theorem headerTime_eq_words (h : Header) :
    headerTime h = 2 ^ 32 * h.timeHi.toInt + h.timeLo.toNat :=
  BitVec.toInt_append (n := 32)

/-- Settles O25: the high word's sign weighs `2 ^ 32 * 2 ^ 32`, and the range is that of 64 bits. -/
theorem headerTimeIsSignExtended : Obligations.HeaderTimeIsSignExtended := by
  intro h
  refine ⟨?_, BitVec.le_toInt _, Int.le_sub_one_of_lt BitVec.toInt_lt⟩
  rw [headerTime_eq_words, toInt_word]
  split <;> ring

/-! ## ID (R22) -/

theorem windowReg_zero : windowReg 0x0000 = .id := rfl

theorem readOffset_id (s : State) : readOffset 0x0000 s = Config.idValue := rfl

/-- Writing ID is writing no register, so it does nothing while the engine is Idle. -/
theorem hostWrite_id_of_idle (v : Word) {s : State} (h : s.engine = .idle) : hostWrite 0x0000 v s = s := by
  rw [hostWrite, windowReg_zero, hostWriteReg_of_idle (by decide) (by decide) (busy_of_idle h), writeReg]

/-- While the engine is Busy a write to ID is dropped as any other write is (R174). -/
theorem hostWrite_id_of_busy (v : Word) {s : State} {w : Word} (h : s.engine = .busy w) :
    hostWrite 0x0000 v s = dropWrite s := by
  rw [hostWrite, windowReg_zero, hostWriteReg_of_busy (by decide) (busy_of_busy h)]

/-- Settles O46: the answer is that of any served write, the effect that of a write to no register. -/
theorem idIsConstant : Obligations.IdIsConstant := by
  intro s v
  have answer : (serve (.write 0x0000 .bits32 v) s).port = some .okWrite := by
    rw [serve_write v s (by decide) (by decide)]
  exact ⟨readOffset_id s, answer, hostWrite_id_of_idle v, fun _ => hostWrite_id_of_busy v⟩

/-! ## The values at reset (R40) -/

theorem readCb_reset (i : Fin 4) : readCb i State.reset = 0#32 := by
  simp [readCb, State.reset]

theorem readTarget_tg_reset (i : Fin 4) : readTarget (.tg i) State.reset = Target.zero := by
  simp [readTarget, readTg, State.reset]

theorem headerWord_reset (side : HeaderSide) (field : HeaderField) :
    headerWord (readHeader side State.reset) field = 0#32 := by
  cases side <;> cases field <;> rfl

theorem magWord_zero (k : Fin 64) : magWord 0#2048 k = 0#32 := BitVec.extractLsb'_zero

/-- In the magnitude whose low `n` words are all ones, a word is all ones exactly when it is one of those. -/
theorem magWord_ones (n : Nat) (k : Fin 64) :
    magWord (BitVec.ofNat 2048 (2 ^ (32 * n) - 1)) k = if k.val < n then BitVec.allOnes 32 else 0#32 := by
  apply BitVec.eq_of_getLsbD_eq
  intro i hi
  have inRange : 32 * k.val + i < 2048 := by omega
  have sameWord : 32 * k.val + i < 32 * n ↔ k.val < n := by omega
  rw [getLsbD_magWord, BitVec.getLsbD_ofNat, Nat.testBit_two_pow_sub_one]
  by_cases low : k.val < n
  · simp only [hi, inRange, sameWord, low, if_pos, BitVec.getLsbD_allOnes, decide_true, Bool.and_self]
  · simp [sameWord, low]

/-- POW_LIMIT's seven low words are all ones (R33). -/
theorem magWord_resetPowLimit (k : Fin 64) :
    magWord Config.resetPowLimit k = if k.val < 7 then 0xFFFFFFFF#32 else 0#32 :=
  magWord_ones 7 k

theorem targetValue_powLimit_reset : targetValue State.reset.powLimit = 2 ^ 224 - 1 := by
  decide +kernel

/-- Settles O9: the plain registers' words, then the files', then POW_LIMIT's, then the engine and `irq`. -/
theorem resetValuesOfTheSpec : Obligations.ResetValuesOfTheSpec := by
  have tgWords (i : Fin 4) : readReg (.sign (.tg i)) State.reset = 0#32 ∧
      ∀ k, readReg (.mag (.tg i) k) State.reset = 0#32 := by
    simp only [readReg, readTarget_tg_reset]
    exact ⟨rfl, magWord_zero⟩
  exact ⟨readOffset_id _, rfl, rfl, rfl, rfl, rfl, rfl, readCb_reset, headerWord_reset, tgWords, rfl,
    magWord_resetPowLimit, targetValue_powLimit_reset, rfl, rfl⟩

end Sys2Proof.Proofs

/-!
Proofs of the statements of 20_memory.md: the window's map (R63), the port (R61), reserved words and bits (R64) and
the words a write leaves (R66).
-/

namespace Sys2Proof.Proofs

open Sys2Proof.Machine Sys2Proof.Laws

/-! ## The window's map (R63) -/

/-- The aligned offsets the map lists as reserved or does not list: the holes among the plain registers, those between
SIGN and `MAG[0]` of each target-format register, and the end of the window. -/
def ReservedOffset (off : Nat) : Prop :=
  off = 0x001C ∨ (0x0030 ≤ off ∧ off ≤ 0x003C) ∨ (0x0060 ≤ off ∧ off ≤ 0x0FFC) ∨
  (0x1000 ≤ off ∧ off ≤ 0x19FC ∧ 0x004 ≤ off % 0x200 ∧ off % 0x200 ≤ 0x0FC) ∨
  (0x1A00 ≤ off ∧ off ≤ 0x1FFC)

theorem targetBase_bounds (x : TargetName) :
    targetBase x % 4 = 0 ∧ targetBase x ≤ 0x1800 := by
  cases x with
  | tg i => simp only [targetBase]; omega
  | powLimit => decide

theorem headerOffset_bounds (side : HeaderSide) (field : HeaderField) :
    headerOffset side field % 4 = 0 ∧ headerOffset side field < 0x0060 := by
  cases side <;> cases field <;> decide

/-- Every register word has an aligned offset inside the window. -/
theorem regOffset_aligned_lt (r : WindowReg) : regOffset r % 4 = 0 ∧ regOffset r < 0x2000 := by
  cases r with
  | cb i => simp only [regOffset]; omega
  | hdr side field => have := headerOffset_bounds side field; simp only [regOffset]; omega
  | sign x => have := targetBase_bounds x; simp only [regOffset]; omega
  | mag x k => have := targetBase_bounds x; simp only [regOffset]; omega
  | _ => decide

/-- The map finds each register word at its offset. -/
theorem windowReg_regOffset (r : WindowReg) : windowReg (regOffset r) = r := by
  cases r with
  | cb i => revert i; decide
  | hdr side field => cases side <;> cases field <;> rfl
  | sign x => exact (windowReg_targetBase x).1
  | mag x k => exact (windowReg_targetBase x).2 k
  | _ => rfl

theorem headerOffset_headerField (side : HeaderSide) {n : Nat} (h : n < 4) :
    headerOffset side (headerField n) = headerOffset side .height + 4 * n := by
  interval_cases n <;> rfl

theorem targetBase_targetName {n : Nat} (h : n < 5) : targetBase (targetName n) = 0x1000 + 0x200 * n := by
  interval_cases n <;> rfl

/-- A target-format register's block is SIGN, a hole, and the words of MAG up to the block's end (R26). -/
theorem targetReg_cases (x : TargetName) {r : Nat} (h4 : r % 4 = 0) (h : r < 0x200) :
    (targetReg x r = .reserved ∧ 0x004 ≤ r ∧ r ≤ 0x0FC) ∨
    (regOffset (targetReg x r) = targetBase x + r ∧ ¬ (0x004 ≤ r ∧ r ≤ 0x0FC)) := by
  fun_cases targetReg x r with
  | case1 => -- SIGN
    exact .inr ⟨by simp only [regOffset, *, Nat.add_zero], by omega⟩
  | case2 => -- MAG
    refine .inr ⟨?_, by omega⟩
    simp only [regOffset, Fin.ofNat]
    omega
  | case3 => exact .inl ⟨rfl, by omega⟩ -- the hole

/-- At an aligned offset of the window stands either nothing, where the map says so, or the word of that offset. -/
theorem windowReg_cases {off : Nat} (h4 : off % 4 = 0) (h : off < 0x2000) :
    (windowReg off = .reserved ∧ ReservedOffset off) ∨
    (regOffset (windowReg off) = off ∧ ¬ ReservedOffset off) := by
  unfold ReservedOffset
  fun_cases windowReg off with
  | case8 => -- CB
    refine .inr ⟨?_, by omega⟩
    simp only [regOffset, Fin.ofNat]
    omega
  | case9 | case10 => -- HDR_S, HDR_E
    refine .inr ⟨?_, by omega⟩
    rw [regOffset, headerOffset_headerField _ (by omega), headerOffset]
    omega
  | case11 => -- the target-format registers
    have base := targetBase_targetName (n := (off - 0x1000) / 0x200) (by omega)
    rcases targetReg_cases (targetName ((off - 0x1000) / 0x200)) (r := (off - 0x1000) % 0x200) (by omega) (by omega)
      with ⟨hole, lo, hi⟩ | ⟨word, noHole⟩
    · exact .inl ⟨hole, by omega⟩
    · exact .inr ⟨by omega, by omega⟩
  | case12 => exact .inl ⟨rfl, by omega⟩ -- not listed
  | _ => exact .inr ⟨by simp only [regOffset, *], by omega⟩

/-- The other half of the inverse of `windowReg_regOffset`, where 0x001C stands for no word but its own. -/
theorem regOffset_windowReg {off : Nat} (h4 : off % 4 = 0) (h : off < 0x2000) (hr : windowReg off ≠ .reserved) :
    regOffset (windowReg off) = off := by
  rcases windowReg_cases h4 h with ⟨hole, -⟩ | ⟨inv, -⟩
  · exact absurd hole hr
  · exact inv

theorem windowReg_eq_reserved_iff {off : Nat} (h4 : off % 4 = 0) (h : off < 0x2000) :
    windowReg off = .reserved ↔ ReservedOffset off := by
  rcases windowReg_cases h4 h with ⟨hole, there⟩ | ⟨inv, notThere⟩
  · exact iff_of_true hole there
  · refine iff_of_false (fun hole => notThere ?_) notThere
    rw [hole] at inv
    exact .inl inv.symm

/-- Settles O41: each listed offset is `regOffset` of its word, so the clauses before the last two are
`windowReg_regOffset` read at that word. -/
theorem windowMapOfTheSpec : Obligations.WindowMapOfTheSpec := by
  have tgWords (i : Fin 4) : windowReg (0x1000 + 0x200 * i.val) = .sign (.tg i) ∧
      ∀ k : Fin 64, windowReg (0x1100 + 0x200 * i.val + 4 * k.val) = .mag (.tg i) k := by
    refine ⟨windowReg_regOffset (.sign (.tg i)), fun k => ?_⟩
    have offset : 0x1100 + 0x200 * i.val + 4 * k.val = regOffset (.mag (.tg i) k) := by
      simp only [regOffset, targetBase]; omega
    rw [offset, windowReg_regOffset]
  have inverse (r : WindowReg) (_ : r ≠ .reserved) :
      regOffset r % 4 = 0 ∧ regOffset r < 0x2000 ∧ windowReg (regOffset r) = r :=
    ⟨(regOffset_aligned_lt r).1, (regOffset_aligned_lt r).2, windowReg_regOffset r⟩
  exact ⟨⟨rfl, rfl, rfl, rfl, rfl, rfl, rfl⟩, fun i => windowReg_regOffset (.cb i), ⟨rfl, rfl, rfl, rfl⟩,
    ⟨rfl, rfl, rfl, rfl⟩, tgWords, windowReg_targetBase .powLimit, inverse,
    fun _ => regOffset_windowReg, fun _ => windowReg_eq_reserved_iff⟩

/-! ## The port (R61) -/

/-- What the port does not serve changes nothing but the port's answer, a bus error (R184). -/
theorem serve_of_not_served {a : Access} (h : ¬ served a = true) (s : State) :
    serve a s = { s with port := some .busError } := by
  cases a <;> simp [serve, accessEffect, accessResponse, h]

/-- What the port serves gets an OK answer. -/
theorem serve_port_of_served {a : Access} (h : served a = true) (s : State) :
    (∃ v, (serve a s).port = some (.okRead v)) ∨ (serve a s).port = some .okWrite := by
  cases a with
  | read off width => exact .inl ⟨readOffset off s, by simp [accessResponse, h]⟩
  | write off width v => exact .inr (by simp [accessResponse, h])

/-- Settles O42: a transaction is served exactly when it is aligned, 32 bits wide and inside the window. -/
theorem onlyAlignedWordsAreServed : Obligations.OnlyAlignedWordsAreServed := by
  refine ⟨fun _ s => serve_read s, fun _ v s => serve_write v s, fun a s => ?_⟩
  rw [← served_iff]
  exact ⟨fun h => serve_port_of_served h s, fun h => serve_of_not_served h s⟩

/-! ## Reserved words and reserved bits (R64) -/

theorem hostWrite_reserved_of_idle {off : Nat} (hr : windowReg off = .reserved) (v : Word) {s : State}
    (h : s.engine = .idle) : hostWrite off v s = s := by
  rw [hostWrite, hr, hostWriteReg_of_idle (by decide) (by decide) (busy_of_idle h), writeReg]

theorem hostWrite_reserved_of_busy {off : Nat} (hr : windowReg off = .reserved) (v : Word) {s : State} {w : Word}
    (h : s.engine = .busy w) : hostWrite off v s = dropWrite s := by
  rw [hostWrite, hr, hostWriteReg_of_busy (by decide) (busy_of_busy h)]

/-! In the next three the mask is cut into the word's own fields: it is 0 where a field holds data, and where the mask
is 1 the word's field is a constant 0. -/

theorem ctrlWord_reserved (c : Ctrl) : ctrlWord c &&& 0xFFFFFFFC#32 = 0#32 := by
  rw [ctrlWord]
  change HAnd.hAnd _ (0x3FFFFFFF#30 ++ 0#1 ++ 0#1) = _
  simp only [BitVec.and_append, BitVec.zero_and, BitVec.and_zero]
  rfl

theorem statusWord_reserved (s : State) : statusWord s &&& 0xFFFFF0F8#32 = 0#32 := by
  rw [statusWord]
  change HAnd.hAnd _ (0xFFFFF#20 ++ 0#4 ++ 0x1F#5 ++ 0#1 ++ 0#1 ++ 0#1) = _
  simp only [BitVec.and_append, BitVec.zero_and, BitVec.and_zero]
  rfl

theorem flagsWord_reserved (f : Flags) : flagsWord f &&& 0xFFFFFC00#32 = 0#32 := by
  rw [flagsWord]
  change HAnd.hAnd _ (0x3FFFFF#22 ++ 0#1 ++ 0#1 ++ 0#1 ++ 0#1 ++ 0#1 ++ 0#1 ++ 0#1 ++ 0#1 ++ 0#1 ++ 0#1) = _
  simp only [BitVec.and_append, BitVec.zero_and, BitVec.and_zero]
  rfl

theorem signWord_reserved (b : Bool) : BitVec.setWidth 32 (BitVec.ofBool b) &&& 0xFFFFFFFE#32 = 0#32 := by
  cases b <;> rfl

/-- Words that agree under a mask agree at each of its bits. -/
theorem getLsbD_eq_of_and_eq {v v' m : Word} (h : v &&& m = v' &&& m) {i : Nat} (hm : m.getLsbD i = true) :
    v.getLsbD i = v'.getLsbD i := by
  have bit := congrArg (·.getLsbD i) h
  simpa [hm] using bit

theorem ctrlOfWord_congr {v v' : Word} (h : v &&& 0x3#32 = v' &&& 0x3#32) : ctrlOfWord v = ctrlOfWord v' := by
  rw [ctrlOfWord, ctrlOfWord, getLsbD_eq_of_and_eq h (i := 0) rfl, getLsbD_eq_of_and_eq h (i := 1) rfl]

theorem clearStatus_congr {v v' : Word} (h : v &&& 0x6#32 = v' &&& 0x6#32) (s : State) :
    clearStatus v s = clearStatus v' s := by
  rw [clearStatus, clearStatus, getLsbD_eq_of_and_eq h (i := 1) rfl, getLsbD_eq_of_and_eq h (i := 2) rfl]

/-- A write of CTRL, STATUS or a SIGN word looks at the bits the register holds only. -/
theorem hostWriteReg_reserved_bits {s : State} (h : s.engine = .idle) (v v' : Word) :
    (v &&& 0x3#32 = v' &&& 0x3#32 → hostWriteReg .ctrl v s = hostWriteReg .ctrl v' s) ∧
    (v &&& 0x6#32 = v' &&& 0x6#32 → hostWriteReg .status v s = hostWriteReg .status v' s) ∧
    ∀ x, v &&& 0x1#32 = v' &&& 0x1#32 → hostWriteReg (.sign x) v s = hostWriteReg (.sign x) v' s := by
  refine ⟨fun same => ?_, fun same => clearStatus_congr same s, fun x same => ?_⟩
  · simp only [hostWriteReg, busy_of_idle h, writeReg, ctrlOfWord_congr same]
  · simp only [hostWriteReg, busy_of_idle h, writeReg, getLsbD_eq_of_and_eq same (i := 0) rfl]

/-- Settles O43: reserved offsets as the port sees them, the bits a read shows, the bits a write looks at, and the
write dropped while Busy. -/
theorem reservedReadsZeroIgnoresWrites : Obligations.ReservedReadsZeroIgnoresWrites := by
  refine ⟨fun off s h4 h hr => ⟨?_, fun v => ⟨?_, ?_, ?_⟩⟩, fun s => ?_, fun s v v' h => ?_, fun s v w h => ?_⟩
  · rw [serve_read s h4 h, readOffset, hr, readReg]
  · rw [serve_write v s h4 h]
  · exact hostWrite_reserved_of_idle hr v
  · exact fun _ => hostWrite_reserved_of_busy hr v
  · exact ⟨ctrlWord_reserved _, statusWord_reserved s, flagsWord_reserved _, fun x => signWord_reserved _⟩
  · exact hostWriteReg_reserved_bits h v v'
  · have dropped (r : WindowReg) (hr : r ≠ .status) : (hostWriteReg r v s).status.wdrop = true := by
      rw [hostWriteReg_of_busy hr (busy_of_busy h), dropWrite_status]
    exact ⟨dropped .id (by decide), dropped .flags (by decide)⟩

/-! ## What a write leaves to read (R66) -/

/-- CTRL's word, bit by bit (R23). -/
theorem getLsbD_ctrlWord (c : Ctrl) (i : Nat) :
    (ctrlWord c).getLsbD i = if i = 0 then c.irqEn else if i = 1 then c.strictEpoch else false := by
  change BitVec.getLsbD (0#30 ++ BitVec.ofBool c.strictEpoch ++ BitVec.ofBool c.irqEn) i = _
  rw [BitVec.getLsbD_append, BitVec.getLsbD_append]
  match i with
  | 0 => simp
  | 1 => simp
  | i + 2 => simp

theorem ctrlWord_ctrlOfWord (v : Word) : ctrlWord (ctrlOfWord v) = v &&& 0x3#32 := by
  apply BitVec.eq_of_getLsbD_eq
  intro i _
  rw [getLsbD_ctrlWord, BitVec.getLsbD_and]
  match i with
  | 0 => simp [ctrlOfWord]
  | 1 => simp [ctrlOfWord]
  | i + 2 =>
    have above : (0x3#32).getLsbD (i + 2) = false := by simp [BitVec.getLsbD, Nat.testBit_add]
    simp [above]

@[simp] theorem readReg_writeReg_ctrl (v : Word) (s : State) :
    readReg .ctrl (writeReg .ctrl v s) = v &&& 0x3#32 := ctrlWord_ctrlOfWord v

@[simp] theorem readReg_writeReg_timespan (v : Word) (s : State) :
    readReg .timespan (writeReg .timespan v s) = v := rfl

@[simp] theorem readReg_writeReg_epochLen (v : Word) (s : State) :
    readReg .epochLen (writeReg .epochLen v s) = v := rfl

@[simp] theorem readReg_writeReg_cb (i : Fin 4) (v : Word) (s : State) :
    readReg (.cb i) (writeReg (.cb i) v s) = v := by
  rw [readReg, writeReg, readCb_writeCb, if_pos rfl]

@[simp] theorem readReg_writeReg_hdr (side : HeaderSide) (field : HeaderField) (v : Word) (s : State) :
    readReg (.hdr side field) (writeReg (.hdr side field) v s) = v := by
  rw [readReg, writeReg, readHeader_writeHeader, if_pos rfl, headerWord_setHeaderWord, if_pos rfl]

@[simp] theorem readReg_writeReg_sign (x : TargetName) (v : Word) (s : State) :
    readReg (.sign x) (writeReg (.sign x) v s) = v &&& 1#32 := by
  rw [readReg, writeReg, readTarget_writeTarget, if_pos rfl, BitVec.and_one_eq_setWidth_ofBool_getLsbD]

@[simp] theorem readReg_writeReg_mag (x : TargetName) (k : Fin 64) (v : Word) (s : State) :
    readReg (.mag x k) (writeReg (.mag x k) v s) = v := by
  rw [readReg, writeReg, readTarget_writeTarget, if_pos rfl, magWord_setMagWord, if_pos rfl]

/-- Settles O44: while Idle the host's write is the write of the word, and each kind of word reads it back. -/
theorem writesReadBack : Obligations.WritesReadBack := by
  intro s v h
  have lands (r : WindowReg) (hs : r ≠ .status) (hc : r ≠ .cmd) : hostWriteReg r v s = writeReg r v s :=
    hostWriteReg_of_idle hs hc (busy_of_idle h)
  simp [lands]

end Sys2Proof.Proofs

/-!
Proofs of the statements of 30_encoding.md: the decoder, the opcode table of R95, the illegal words of R91 and R93,
and the examples of R98.
-/

namespace Sys2Proof.Proofs

open Sys2Proof.Machine Sys2Proof.Laws

/-! ## The decoder's answers -/

theorem wellFormedAndEncoded : ∀ i : Instr, WellFormedAndEncoded.Statement i
  | .nop => WellFormedAndEncoded.nop
  | .decode dst src => WellFormedAndEncoded.decode dst src
  | .encode dst src => WellFormedAndEncoded.encode dst src
  | .retarget dst => WellFormedAndEncoded.retarget dst

theorem decodeWord_encodeInstr (i : Instr) : decodeWord (encodeInstr i) = .ok i := by
  obtain ⟨-, decodes, -⟩ := wellFormedAndEncoded i
  exact decodes

/-- The only word a command decodes from is its own: the decoder leaves no bit of the word unread. -/
theorem eq_encodeInstr_of_decodeWord {w : Word} {i : Instr} (h : decodeWord w = .ok i) : w = encodeInstr i := by
  rcases decodeWord_cases w with ⟨op, clear, d, s, h'⟩ | ⟨op, clear, h'⟩ | ⟨op, clear, h'⟩ | ⟨op, clear, s, h'⟩ |
    ⟨_, _, h'⟩ | ⟨_, h'⟩ <;> cases h.symm.trans h'
  · exact (eq_commandWord_iff w _ _ _).2 ⟨op, d, s, clear⟩
  · exact (eq_commandWord_iff w _ _ _).2 ⟨op, rfl, rfl, clear⟩
  · exact (eq_commandWord_iff w _ _ _).2 ⟨op, rfl, rfl, clear⟩
  · exact (eq_commandWord_iff w _ _ _).2 ⟨op, rfl, s, clear⟩

theorem decodeWord_eq_ok_iff (w : Word) (i : Instr) : decodeWord w = .ok i ↔ w = encodeInstr i :=
  ⟨eq_encodeInstr_of_decodeWord, fun h => h ▸ decodeWord_encodeInstr i⟩

/-- OP selects the command, and its operands are the word's fields (R91, R92). -/
theorem fields_of_decodeWord {w : Word} {i : Instr} (h : decodeWord w = .ok i) :
    (opField w = 0x00#8 ∧ i = .nop) ∨ (opField w = 0x01#8 ∧ i = .decode (dField w) (sField w)) ∨
    (opField w = 0x02#8 ∧ i = .encode (dField w) (sField w)) ∨ (opField w = 0x03#8 ∧ i = .retarget (dField w)) := by
  have hw := eq_encodeInstr_of_decodeWord h
  cases i with
  | nop =>
    obtain ⟨op, -⟩ := (eq_commandWord_iff w _ _ _).1 hw
    exact .inl ⟨op, rfl⟩
  | decode dst src =>
    obtain ⟨op, rfl, rfl, -⟩ := (eq_commandWord_iff w _ _ _).1 hw
    exact .inr (.inl ⟨op, rfl⟩)
  | encode dst src =>
    obtain ⟨op, rfl, rfl, -⟩ := (eq_commandWord_iff w _ _ _).1 hw
    exact .inr (.inr (.inl ⟨op, rfl⟩))
  | retarget dst =>
    obtain ⟨op, rfl, -⟩ := (eq_commandWord_iff w _ _ _).1 hw
    exact .inr (.inr (.inr ⟨op, rfl⟩))

theorem exists_error_iff_forall_ne_ok (w : Word) : (∃ e, decodeWord w = .error e) ↔ ∀ i, decodeWord w ≠ .ok i := by
  cases decodeWord w <;> simp

/-! ## The words under the masks of the opcode table (R95) -/

theorem and_fullMask_eq_iff (w : Word) : w &&& 0xFFFFFFFF#32 = 0x00000000#32 ↔ w = commandWord 0x00#8 0 0 := by
  have keep : w &&& 0xFFFFFFFF#32 = w := BitVec.and_allOnes
  have zero : commandWord 0x00#8 0 0 = 0x00000000#32 := by decide
  rw [keep, zero]

/-- The mask of DECODE and ENCODE leaves both operand fields free and fixes every other bit. -/
theorem and_twoFieldMask_eq_iff (w : Word) (op : BitVec 8) :
    w &&& 0xFFFFCCFF#32 = op.setWidth 32 ↔ w = commandWord op (dField w) (sField w) := by
  have := op.isLt
  have := (opField w).isLt
  have := (lowReserved w).isLt
  rw [eq_commandWord_iff, reservedClear_iff, ← BitVec.toNat_inj, ← BitVec.toNat_inj, toNat_and_twoFieldMask,
    BitVec.toNat_setWidth]
  simp only [true_and]
  omega

/-- The mask of RETARGET leaves D free and fixes every other bit, those of S to 0. -/
theorem and_oneFieldMask_eq_iff (w : Word) (op : BitVec 8) :
    w &&& 0xFFFFFCFF#32 = op.setWidth 32 ↔ w = commandWord op (dField w) 0 := by
  have := op.isLt
  have := (opField w).isLt
  have := (lowReserved w).isLt
  rw [eq_commandWord_iff, reservedClear_iff, ← BitVec.toNat_inj, ← BitVec.toNat_inj, toNat_and_oneFieldMask,
    BitVec.toNat_setWidth, Fin.ext_iff (a := sField w), Fin.val_zero]
  simp only [true_and]
  omega

/-! ## The decoder is the table (R95) -/

/-- The command of a mnemonic with a word's fields as its operands (R92). -/
def fieldsInstr (m : Mnemonic) (w : Word) : Instr :=
  match m with
  | .nop => .nop
  | .decode => .decode (dField w) (sField w)
  | .encode => .encode (dField w) (sField w)
  | .retarget => .retarget (dField w)

@[simp] theorem mnemonic_fieldsInstr (m : Mnemonic) (w : Word) : (fieldsInstr m w).mnemonic = m := by
  cases m <;> rfl

theorem eq_fieldsInstr_of_decodeWord {w : Word} {i : Instr} (h : decodeWord w = .ok i) :
    i = fieldsInstr i.mnemonic w := by
  rcases fields_of_decodeWord h with ⟨-, rfl⟩ | ⟨-, rfl⟩ | ⟨-, rfl⟩ | ⟨-, rfl⟩ <;> rfl

/-- A row's mask and match say when the decoder answers the row's command. -/
theorem decodeWord_eq_fieldsInstr_iff {r : OpcodeRow} (hr : r ∈ opcodeTable) (w : Word) :
    decodeWord w = .ok (fieldsInstr r.mnemonic w) ↔ w &&& r.mask = r.pattern := by
  rw [decodeWord_eq_ok_iff]
  simp only [opcodeTable, List.mem_cons, List.not_mem_nil, or_false] at hr
  rcases hr with rfl | rfl | rfl | rfl
  · exact (and_fullMask_eq_iff w).symm
  · exact (and_twoFieldMask_eq_iff w 0x01#8).symm
  · exact (and_twoFieldMask_eq_iff w 0x02#8).symm
  · exact (and_oneFieldMask_eq_iff w 0x03#8).symm

theorem selects_iff_exists_mnemonic {r : OpcodeRow} (hr : r ∈ opcodeTable) (w : Word) :
    r.selects w = true ↔ ∃ i, decodeWord w = .ok i ∧ i.mnemonic = r.mnemonic := by
  rw [OpcodeRow.selects, beq_iff_eq, ← decodeWord_eq_fieldsInstr_iff hr]
  constructor
  · exact fun h => ⟨_, h, mnemonic_fieldsInstr _ w⟩
  · rintro ⟨i, h, hm⟩
    rw [← hm, ← eq_fieldsInstr_of_decodeWord h, h]

theorem exists_row (m : Mnemonic) : ∃ r ∈ opcodeTable, r.mnemonic = m := by
  cases m <;> decide

theorem row_eq_of_mnemonic_eq : ∀ r ∈ opcodeTable, ∀ r' ∈ opcodeTable, r.mnemonic = r'.mnemonic → r = r' := by
  decide

/-- The word has at most one command, so the rows that select it name one mnemonic. -/
theorem row_eq_of_selects {w : Word} {r r' : OpcodeRow} (hr : r ∈ opcodeTable) (hr' : r' ∈ opcodeTable)
    (h : r.selects w = true) (h' : r'.selects w = true) : r = r' := by
  obtain ⟨i, hi, him⟩ := (selects_iff_exists_mnemonic hr w).1 h
  obtain ⟨j, hj, hjm⟩ := (selects_iff_exists_mnemonic hr' w).1 h'
  cases hi.symm.trans hj
  exact row_eq_of_mnemonic_eq r hr r' hr' (him.symm.trans hjm)

/-- R96: a word is illegal exactly when no row selects it. -/
theorem exists_error_iff_no_row_selects (w : Word) :
    (∃ e, decodeWord w = .error e) ↔ ∀ r ∈ opcodeTable, r.selects w = false := by
  rw [exists_error_iff_forall_ne_ok]
  constructor
  · intro illegal r hr
    rw [Bool.eq_false_iff]
    intro h
    obtain ⟨i, hi, -⟩ := (selects_iff_exists_mnemonic hr w).1 h
    exact illegal i hi
  · intro unselected i hi
    obtain ⟨r, hr, hm⟩ := exists_row i.mnemonic
    have selected := (selects_iff_exists_mnemonic hr w).2 ⟨i, hi, hm.symm⟩
    exact Bool.false_ne_true ((unselected r hr).symm.trans selected)

/-- Settles O3: the first four clauses are the four rows' masks and matches, the others follow from the mnemonic
of the command the word decodes to. -/
theorem decoderFollowsOpcodeTable : Obligations.DecoderFollowsOpcodeTable := by
  have row (r : OpcodeRow) (hr : r ∈ opcodeTable) := decodeWord_eq_fieldsInstr_iff hr
  refine ⟨row ⟨.nop, 0x00000000#32, 0xFFFFFFFF#32⟩ (by decide),
    row ⟨.decode, 0x00000001#32, 0xFFFFCCFF#32⟩ (by decide),
    row ⟨.encode, 0x00000002#32, 0xFFFFCCFF#32⟩ (by decide),
    row ⟨.retarget, 0x00000003#32, 0xFFFFFCFF#32⟩ (by decide), ?commands, exists_error_iff_no_row_selects,
    fun _ _ hr _ hr' => row_eq_of_selects hr hr', by decide⟩
  intro w i h
  exact (fields_of_decodeWord h).imp And.right (.imp And.right (.imp And.right And.right))

/-! ## The illegal words (R91, R93) -/

theorem reservedClear_eq_false_iff (w : Word) :
    reservedClear w = false ↔ w.extractLsb' 10 2 ≠ 0#2 ∨ w.extractLsb' 14 18 ≠ 0#18 := by
  simp only [reservedClear, lowReserved, highReserved, Bool.and_eq_false_iff, beq_eq_false_iff_ne]
  rfl

theorem decodeWord_eq_reservedOpcode_iff (w : Word) :
    decodeWord w = .error .reservedOpcode ↔ 4 ≤ (opField w).toNat := by
  rcases decodeWord_cases w with ⟨op, -, -, -, h⟩ | ⟨op, -, h⟩ | ⟨op, -, h⟩ | ⟨op, -, -, h⟩ | ⟨op, -, h⟩ | ⟨op, h⟩ <;>
    simp [h, op]

/-- R93: the always-reserved fields, and the fields the command does not use. -/
theorem decodeWord_eq_mustBeZero_iff (w : Word) :
    decodeWord w = .error .mustBeZero ↔
      (opField w).toNat < 4 ∧
        (w.extractLsb' 10 2 ≠ 0#2 ∨ w.extractLsb' 14 18 ≠ 0#18 ∨
          (opField w = 0x00#8 ∧ (dField w ≠ 0 ∨ sField w ≠ 0)) ∨ (opField w = 0x03#8 ∧ sField w ≠ 0)) := by
  rw [← or_assoc, ← reservedClear_eq_false_iff]
  rcases decodeWord_cases w with ⟨op, clear, d, s, h⟩ | ⟨op, clear, h⟩ | ⟨op, clear, h⟩ | ⟨op, clear, s, h⟩ |
    ⟨op, nonzero, h⟩ | ⟨op, h⟩
  · simp [h, op, clear, d, s]
  · simp [h, op, clear]
  · simp [h, op, clear]
  · simp [h, op, clear, s]
  · exact iff_of_true h ⟨op, nonzero⟩
  · simp [h, op]

/-- Settles O4: one lemma for the legal words and one for each reason to refuse a word. -/
theorem illegalWordsExactly : Obligations.IllegalWordsExactly := fun w =>
  ⟨fun _ => fields_of_decodeWord, decodeWord_eq_reservedOpcode_iff w, decodeWord_eq_mustBeZero_iff w⟩

/-! ## The examples (R98) -/

/-- A line that assembles to a command's word gives a word that decodes to that command. -/
theorem assemble_and_decodeWord {text : String} (i : Instr) (h : assemble text = some (encodeInstr i)) :
    assemble text = some (encodeInstr i) ∧ decodeWord (encodeInstr i) = .ok i :=
  ⟨h, decodeWord_encodeInstr i⟩

/-- Settles O1: the legal lines are evaluated, and each illegal word is refused for its OP or its nonzero field. -/
theorem exampleWordsDecode : Obligations.ExampleWordsDecode :=
  ⟨assemble_and_decodeWord .nop (by decide),
    assemble_and_decodeWord (.decode 0 0) (by decide), assemble_and_decodeWord (.decode 1 2) (by decide),
    assemble_and_decodeWord (.encode 1 0) (by decide), assemble_and_decodeWord (.encode 3 2) (by decide),
    assemble_and_decodeWord (.retarget 1) (by decide), assemble_and_decodeWord (.retarget 3) (by decide),
    (decodeWord_eq_reservedOpcode_iff _).2 (by decide),
    (decodeWord_eq_mustBeZero_iff _).2 (by decide), (decodeWord_eq_mustBeZero_iff _).2 (by decide),
    (decodeWord_eq_mustBeZero_iff _).2 (by decide), (decodeWord_eq_mustBeZero_iff _).2 (by decide)⟩

end Sys2Proof.Proofs

/-!
Proofs of the statements of 40_codec.md: Decode and Encode as arithmetic, their round trips, and the commands
DECODE and ENCODE that commit them.
-/

namespace Sys2Proof.Proofs

open Sys2Proof.Machine Sys2Proof.Laws

/-! ## Decode as arithmetic (R112 to R116) -/

/-- Groups of eight bits are digits in base 256. -/
theorem two_pow_eight_mul (k : Nat) : 2 ^ (8 * k) = 256 ^ k := pow_mul 2 8 k

theorem compactDecode_eq_ite (c : Word) :
    compactDecode c = if compactSign c then -(decodeMagnitude (compactExponent c) (compactMantissa c) : Int)
      else (decodeMagnitude (compactExponent c) (compactMantissa c) : Int) := rfl

/-- Decode sees a word only through its magnitude when it asks for zero. -/
theorem compactDecode_eq_zero_iff (c : Word) :
    compactDecode c = 0 ↔ decodeMagnitude (compactExponent c) (compactMantissa c) = 0 := by
  rw [← Int.natAbs_eq_zero, natAbs_compactDecode]

/-- Decode of a word given by its fields. -/
theorem compactDecode_packCompact {neg : Bool} {e m : Nat} (he : e < 256) (hm : m < 2 ^ 23) :
    compactDecode (packCompact neg e m) =
      if neg then -(decodeMagnitude e m : Int) else (decodeMagnitude e m : Int) := by
  rw [compactDecode_eq_ite, compactSign_pack he hm, compactExponent_pack he hm, compactMantissa_pack he hm]

/-- A word with the sign bit never decodes to a positive value. -/
theorem compactDecode_nonpos_of_sign {c : Word} (h : compactSign c = true) : compactDecode c ≤ 0 := by
  rw [compactDecode_eq_ite, if_pos h]; omega

/-- A zero mantissa decodes to zero at every exponent (R113). -/
theorem decodeMagnitude_zero (e : Nat) : decodeMagnitude e 0 = 0 := by
  rw [decodeMagnitude_eq]; split <;> simp

theorem compactDecode_zero : compactDecode 0x00000000#32 = 0 := by decide

/-- Settles O14: the fields are digits of the word's number, and the shifts are by whole bytes. -/
theorem decodeIsTheFormula : Obligations.DecodeIsTheFormula := by
  intro c m neg e a
  have mantissa : compactMantissa c = m := compactMantissa_eq c
  have exponent : compactExponent c = e := compactExponent_eq c
  have magnitude : decodeMagnitude e m = a := by
    rw [decodeMagnitude_eq]; simp only [two_pow_eight_mul (e - 3), a]
  constructor
  · rw [compactDecode_eq_ite, compactSign_eq, mantissa, exponent, magnitude]
    simp only [decide_eq_true_eq, neg]
  · intro hm
    rw [compactDecode_eq_zero_iff, mantissa, hm, decodeMagnitude_zero]

/-- The largest magnitude Decode can give (R115). -/
theorem decodeMagnitude_largest : decodeMagnitude 255 0x7FFFFF = 0x7FFFFF * 256 ^ 252 := by
  rw [decodeMagnitude_eq, if_neg (by decide), two_pow_eight_mul]

/-- The weight of the mantissa at exponent 255. -/
theorem two_pow_2016 : 2 ^ 2016 = 256 ^ 252 := by rw [← two_pow_eight_mul]

theorem largestMagnitude_lt : 0x7FFFFF * 256 ^ 252 < 2 ^ 2039 := by
  have bytes : 2 ^ 2039 = 2 ^ 23 * 256 ^ 252 := by rw [← two_pow_2016, ← pow_add]
  rw [bytes]
  exact Nat.mul_lt_mul_of_pos_right (by decide) (by positivity)

/-- A target register holds every value of Decode (R115). -/
theorem targetValue_putTarget_compactDecode (c : Word) : targetValue (putTarget (compactDecode c)) = compactDecode c :=
  targetValue_putTarget <| calc
    (compactDecode c).natAbs < 2 ^ 2039 := natAbs_compactDecode_lt c
    _ ≤ 2 ^ 2048 := Nat.pow_le_pow_right (by decide) (by decide)

/-- Settles O15: both extremes are the words of exponent 255 and the largest mantissa. -/
theorem decodeFitsTargetRegister : Obligations.DecodeFitsTargetRegister := by
  have extreme (neg : Bool) := compactDecode_packCompact (neg := neg) (e := 255) (m := 0x7FFFFF) (by decide) (by decide)
  have positive : (0xFF7FFFFF#32 : Word) = packCompact false 255 0x7FFFFF := by decide
  have negative : (0xFFFFFFFF#32 : Word) = packCompact true 255 0x7FFFFF := by decide
  refine ⟨fun c => ?_, largestMagnitude_lt, ?_, ?_, targetValue_putTarget_compactDecode⟩
  · rw [← two_pow_2016]; exact natAbs_compactDecode_le c
  · rw [positive, extreme, decodeMagnitude_largest]; simp
  · rw [negative, extreme, decodeMagnitude_largest]; simp

/-! ## DECODE (R116 to R118) -/

/-- What DECODE answers, from every state (R117). -/
theorem exec_decode (dst src : Fin 4) (s : State) :
    exec (.decode dst src) s =
      .next (commit (.success (.tg dst (compactDecode (readCb src s))) (decodeFlags (readCb src s))) s) :=
  exec_eq_commit (.decode dst src) s

theorem readTg_commitSuccess_tg (i : Fin 4) (v : Int) (f : Flags) (s : State) :
    readTg i (commitSuccess (.tg i v) f s) = putTarget v := by simp

theorem readCb_commitSuccess_cb (i : Fin 4) (w : Word) (f : Flags) (s : State) :
    readCb i (commitSuccess (.cb i w) f s) = w := by simp

/-- Settles O16: a zero magnitude, of either kind, decodes to 0, and `put` writes no sign for it. -/
theorem decodeNegativeZeroIsPositive : Obligations.DecodeNegativeZeroIsPositive := by
  intro dst src s sign zeroMagnitude
  have decoded : compactDecode (readCb src s) = 0 := by
    rw [compactDecode_eq_zero_iff]
    rcases zeroMagnitude with mantissa | ⟨exponent, kept⟩
    · rw [mantissa, decodeMagnitude_zero]
    · rw [decodeMagnitude_eq, if_pos exponent.le, kept]
  refine ⟨decoded, _, exec_decode dst src s, ?_, sign⟩
  rw [commit_success, readTg_commitSuccess_tg, decoded, putTarget_zero]

/-- The sign bit without a negative result marks a negative zero (R118). -/
theorem signIn_without_neg_iff (c : Word) :
    compactSign c = true ∧ ¬ compactDecode c < 0 ↔ compactDecode c = 0 ∧ compactSign c = true := by
  constructor
  · rintro ⟨sign, notNeg⟩
    exact ⟨le_antisymm (compactDecode_nonpos_of_sign sign) (not_lt.1 notNeg), sign⟩
  · rintro ⟨zero, sign⟩
    exact ⟨sign, zero.not_lt⟩

/-- Settles O17: DECODE is always the commit of a success, so its end and its frame are those of one. -/
theorem decodeWritesTargetAndFlags : Obligations.DecodeWritesTargetAndFlags := by
  intro dst src s c v
  refine ⟨_, exec_decode dst src s, ?_, ?_, rfl, ?_, ?_, committed_success _ _ s, sameWindow_tg dst _ _ s⟩
  · rw [commit_success, readTg_commitSuccess_tg, targetValue_putTarget_compactDecode]
  · intro zero
    rw [commit_success, readTg_commitSuccess_tg, show compactDecode (readCb src s) = 0 from zero, putTarget_zero]
  · intro neg
    exact signBit_of_compactDecode_neg c (of_decide_eq_true neg)
  · have negClear : decide (v < 0) = false ↔ ¬ v < 0 := decide_eq_false_iff_not
    exact (and_congr_right fun _ => negClear).trans (signIn_without_neg_iff c)

/-! ## The word Encode returns (R120 to R123) -/

/-- The word Encode returns, field by field, and when the correction was applied. -/
theorem fields_of_compactEncode {v : Int} {w : Word} {ovf : Bool} (hv : v ≠ 0) (h : compactEncode v = .word w ovf) :
    compactExponent w = bytelen v.natAbs + (if ovf then 1 else 0) ∧ compactSign w = decide (v < 0) ∧
    compactMantissa w =
      (if ovf then rawMantissa v.natAbs (bytelen v.natAbs) / 256 else rawMantissa v.natAbs (bytelen v.natAbs)) ∧
    (ovf = true ↔ 2 ^ 23 ≤ rawMantissa v.natAbs (bytelen v.natAbs)) := by
  obtain ⟨e, m, rfl, he, he255, hm, hm23, plain, corrected⟩ := encodedWord_fields hv h
  have he256 : e < 256 := by omega
  have correctedIff : ovf = true ↔ 2 ^ 23 ≤ rawMantissa v.natAbs (bytelen v.natAbs) := by
    cases ovf with
    | false => exact iff_of_false (by decide) (not_le.2 (plain rfl))
    | true => exact iff_of_true rfl (corrected rfl)
  exact ⟨(compactExponent_pack he256 hm23).trans he, compactSign_pack he256 hm23,
    (compactMantissa_pack he256 hm23).trans hm, correctedIff⟩

theorem compactEncode_zero_eq_word {w : Word} {ovf : Bool} (h : compactEncode 0 = .word w ovf) :
    w = 0#32 ∧ ovf = false := by
  rw [compactEncode_zero] at h
  obtain ⟨hw, ho⟩ := EncodeOutcome.word.inj h
  exact ⟨hw.symm, ho.symm⟩

theorem one_le_exponent_of_compactEncode {v : Int} {w : Word} {ovf : Bool} (hv : v ≠ 0)
    (h : compactEncode v = .word w ovf) : 1 ≤ compactExponent w := by
  obtain ⟨exponent, -⟩ := fields_of_compactEncode hv h
  have := bytelen_pos (Int.natAbs_ne_zero.2 hv)
  omega

/-- The canonical mantissas of R122: three significant bytes, or two after the correction. -/
theorem mantissa_bounds_of_compactEncode {v : Int} {w : Word} {ovf : Bool} (hv : v ≠ 0)
    (h : compactEncode v = .word w ovf) :
    (ovf = false → 0x010000 ≤ compactMantissa w ∧ compactMantissa w ≤ 0x7FFFFF) ∧
    (ovf = true → 0x008000 ≤ compactMantissa w ∧ compactMantissa w ≤ 0x00FFFF) := by
  obtain ⟨-, -, mantissa, corrected⟩ := fields_of_compactEncode hv h
  have lower := rawMantissa_ge (Int.natAbs_ne_zero.2 hv)
  have upper := rawMantissa_lt v.natAbs
  constructor
  · rintro rfl
    have notCorrected : ¬ 2 ^ 23 ≤ rawMantissa v.natAbs (bytelen v.natAbs) := corrected.not.1 (by decide)
    rw [if_neg (by decide)] at mantissa
    omega
  · rintro rfl
    have large := corrected.1 rfl
    rw [if_pos rfl] at mantissa
    omega

/-- Settles O19: the fields of the word and the bounds of its mantissa. -/
theorem encodedWordsAreCanonical : Obligations.EncodedWordsAreCanonical := by
  refine ⟨fun a => ⟨rawMantissa_lt a, fun k hk => Nat.mod_eq_of_lt ?_⟩, fun v w ovf hv h => ?_⟩
  · exact (rawMantissa_lt a).trans_le (Nat.pow_le_pow_right (by decide) hk)
  · obtain ⟨-, sign, mantissa, -⟩ := fields_of_compactEncode hv h
    obtain ⟨plain, corrected⟩ := mantissa_bounds_of_compactEncode hv h
    exact ⟨one_le_exponent_of_compactEncode hv h, Nat.le_of_lt_succ (compactExponent_lt w), sign, mantissa, plain,
      corrected⟩

/-- The magnitude of the word Encode returns: all but the low `8k` bits, `k` bytes beyond the third (R123). -/
theorem decodeMagnitude_of_compactEncode {v : Int} {w : Word} {ovf : Bool} (hv : v ≠ 0)
    (h : compactEncode v = .word w ovf) :
    decodeMagnitude (compactExponent w) (compactMantissa w) =
      v.natAbs / 2 ^ (8 * (compactExponent w - 3)) * 2 ^ (8 * (compactExponent w - 3)) := by
  obtain ⟨exponent, -, mantissa, corrected⟩ := fields_of_compactEncode hv h
  rw [exponent, mantissa]
  cases ovf with
  | false => exact decodeMagnitude_rawMantissa
  | true => exact decodeMagnitude_corrected (corrected.1 rfl)

/-- Decode of the word Encode returns truncates the magnitude and keeps the sign (R123). -/
theorem compactDecode_of_compactEncode {v : Int} {w : Word} {ovf : Bool} (h : compactEncode v = .word w ovf) :
    compactDecode w =
      v.sign * ((v.natAbs / 2 ^ (8 * (compactExponent w - 3)) * 2 ^ (8 * (compactExponent w - 3)) : Nat) : Int) := by
  by_cases hv : v = 0
  · subst hv
    obtain ⟨rfl, -⟩ := compactEncode_zero_eq_word h
    rw [compactDecode_zero, Int.sign_zero, zero_mul]
  · obtain ⟨-, sign, -⟩ := fields_of_compactEncode hv h
    rw [compactDecode_eq_ite, sign, decodeMagnitude_of_compactEncode hv h]
    rcases lt_or_gt_of_ne hv with neg | pos
    · rw [Int.sign_eq_neg_one_of_neg neg]; simp [neg]
    · rw [Int.sign_eq_one_of_pos pos]; simp [pos.le]

/-- Encode loses nothing where the bytes it drops are zero. -/
theorem compactDecode_eq_of_dvd {v : Int} {w : Word} {ovf : Bool} (h : compactEncode v = .word w ovf)
    (dropped : 2 ^ (8 * (compactExponent w - 3)) ∣ v.natAbs) : compactDecode w = v := by
  rw [compactDecode_of_compactEncode h, Nat.div_mul_cancel dropped, Int.sign_mul_natAbs]

/-- Settles O20: at exponents up to 3 no byte is dropped. -/
theorem encodeTruncatesMagnitude : Obligations.EncodeTruncatesMagnitude := by
  refine fun v w ovf h => ⟨compactDecode_of_compactEncode h, fun small => ?_, fun hv => ?_⟩
  · refine compactDecode_eq_of_dvd h ?_
    rw [Nat.sub_eq_zero_of_le small]; exact one_dvd _
  · obtain ⟨exponent, -⟩ := fields_of_compactEncode hv h
    exact exponent

/-! ## Round trips (R124) -/

/-- Step 5's correction is due exactly when the top bit of the leading byte is set (R120). -/
theorem rawMantissa_ge_iff (a : Nat) {e : Nat} (he : 1 ≤ e) :
    2 ^ 23 ≤ rawMantissa a e ↔ 2 ^ (8 * e - 1) ≤ a := by
  rcases le_or_gt e 3 with h | h
  · have bits : 2 ^ 23 = 2 ^ (8 * e - 1) * 2 ^ (8 * (3 - e)) := by rw [← pow_add]; congr 1; omega
    rw [rawMantissa_of_le h, bits, Nat.mul_le_mul_right_iff (by positivity)]
  · have bits : 23 + 8 * (e - 3) = 8 * e - 1 := by omega
    rw [rawMantissa_of_gt h, Nat.le_div_iff_mul_le (by positivity), ← pow_add, bits]

/-- The exponent returned bounds the magnitude from below: a mantissa of Encode has at least 16 bits. -/
theorem two_pow_le_natAbs_of_compactEncode {v : Int} {w : Word} {ovf : Bool} (hv : v ≠ 0)
    (h : compactEncode v = .word w ovf) : 2 ^ (8 * compactExponent w - 9) ≤ v.natAbs := by
  obtain ⟨exponent, -, -, corrected⟩ := fields_of_compactEncode hv h
  have nonzero := Int.natAbs_ne_zero.2 hv
  cases ovf with
  | false =>
    calc 2 ^ (8 * compactExponent w - 9) ≤ 2 ^ (8 * (bytelen v.natAbs - 1)) :=
          Nat.pow_le_pow_right (by decide) (by rw [if_neg (by decide)] at exponent; omega)
      _ ≤ v.natAbs := le_of_bytelen nonzero
  | true =>
    have same : 8 * compactExponent w - 9 = 8 * bytelen v.natAbs - 1 := by rw [exponent, if_pos rfl]; omega
    rw [same]
    exact (rawMantissa_ge_iff _ (bytelen_pos nonzero)).1 (corrected.1 rfl)

/-- (a) A magnitude of 23 bits followed by zero bytes takes the round trip: the bytes dropped are among them. -/
theorem compactDecode_of_compactEncode_bytes {n : Int} {m k : Nat} {w : Word} {ovf : Bool}
    (hn : n.natAbs = m * 256 ^ k) (hm : m < 2 ^ 23) (h : compactEncode n = .word w ovf) : compactDecode w = n := by
  refine compactDecode_eq_of_dvd h ?_
  rcases eq_or_ne n 0 with rfl | nonzero
  · exact dvd_zero _
  have lower := two_pow_le_natAbs_of_compactEncode nonzero h
  have upper : n.natAbs < 2 ^ (23 + 8 * k) := by
    rw [hn, pow_add, two_pow_eight_mul]
    exact Nat.mul_lt_mul_of_pos_right hm (by positivity)
  have bits : 8 * compactExponent w - 9 < 23 + 8 * k := (Nat.pow_lt_pow_iff_right (by decide)).1 (lower.trans_lt upper)
  have droppedBytes : compactExponent w - 3 ≤ k := by omega
  rw [hn, two_pow_eight_mul]
  exact (pow_dvd_pow 256 droppedBytes).mul_left m

/-- ORing the sign flag into a word packed without it packs the negative value. -/
theorem packCompact_or_sign (e m : Nat) : packCompact false e m ||| 0x00800000#32 = packCompact true e m := rfl

/-- (b) The sign flag on the word of a positive value negates what it decodes to. -/
theorem compactDecode_or_sign_of_compactEncode {n : Int} {w : Word} {ovf : Bool} (hn : 0 < n)
    (h : compactEncode n = .word w ovf) : compactDecode (w ||| 0x00800000#32) = -compactDecode w := by
  obtain ⟨e, m, packed, -, he255, -, hm, -⟩ := encodedWord_fields hn.ne' h
  have he : e < 256 := by omega
  rw [packed, decide_eq_false hn.not_gt, packCompact_or_sign, compactDecode_packCompact he hm,
    compactDecode_packCompact he hm]
  rfl

/-- (c) Encode returns the zero word or a word of a canonical mantissa (R122). -/
theorem eq_zero_or_canonical_of_compactEncode {v : Int} {w : Word} {ovf : Bool} (h : compactEncode v = .word w ovf) :
    w = 0#32 ∨ (1 ≤ compactExponent w ∧ 0x008000 ≤ compactMantissa w) := by
  rcases eq_or_ne v 0 with rfl | hv
  · exact .inl (compactEncode_zero_eq_word h).1
  · obtain ⟨plain, corrected⟩ := mantissa_bounds_of_compactEncode hv h
    refine .inr ⟨one_le_exponent_of_compactEncode hv h, ?_⟩
    cases ovf with
    | false => exact le_trans (by decide) (plain rfl).1
    | true => exact (corrected rfl).1

/-- Settles O21: the laws (a), (b) and (c), and the examples evaluated. -/
theorem codecRoundTrips : Obligations.CodecRoundTrips := by
  refine ⟨fun n m k w ovf hn hm h => compactDecode_of_compactEncode_bytes hn hm h, fun n w ovf hn h roundTrip => ?_,
    ⟨by decide, by decide⟩, ⟨by decide, by decide⟩, fun v w ovf h => ?_⟩
  · rw [compactDecode_or_sign_of_compactEncode hn h, roundTrip]
  · have canonical := eq_zero_or_canonical_of_compactEncode h
    refine ⟨?_, canonical⟩
    rintro rfl
    exact absurd canonical (by decide)

/-! ## ENCODE (R121, R127, R128) -/

/-- What ENCODE answers where Encode returns a word (R127). -/
theorem exec_encode_word {dst src : Fin 4} {s : State} {w : Word} {ovf : Bool}
    (h : compactEncode (targetValue (readTg src s)) = .word w ovf) :
    exec (.encode dst src) s =
      .next (commit (.success (.cb dst w) (encodeFlags (targetValue (readTg src s)) w ovf)) s) := by
  rw [exec_eq_commit, instrOutcome, encodeOutcome_word h]

theorem targetValue_eq_zero_iff (x : Target) : targetValue x = 0 ↔ x.mag = 0#2048 := by
  rw [← Int.natAbs_eq_zero, natAbs_targetValue, ← BitVec.toNat_inj, BitVec.toNat_ofNat, Nat.zero_mod]

/-- ENCODE of zero raises ZERO alone (R121). -/
theorem encodeFlags_zero : encodeFlags 0 0x00000000#32 false = { Flags.clear with zero := true } := by
  decide

/-- Settles O18: the value of a register of magnitude 0 is 0 whatever its sign, and Encode tests the value. -/
theorem encodeZeroIsZeroWord : Obligations.EncodeZeroIsZeroWord := by
  refine ⟨compactEncode_zero, compactDecode_zero, fun dst src s mag => ?_⟩
  have value : targetValue (readTg src s) = 0 := (targetValue_eq_zero_iff _).2 mag
  refine ⟨_, exec_encode_word (by rw [value, compactEncode_zero]), ?_, ?_, committed_success _ _ s⟩
  · rw [commit_success, readCb_commitSuccess_cb]
  · rw [value]
    exact encodeFlags_zero

/-- Every magnitude below 2^2039 has a word (R125). -/
theorem exists_word_of_natAbs_lt {v : Int} (h : v.natAbs < 2 ^ 2039) : ∃ w ovf, compactEncode v = .word w ovf := by
  rcases compactEncode_cases v with ⟨-, word⟩ | ⟨-, -, range⟩ | ⟨-, -, -, word⟩ | ⟨-, -, -, word⟩
  · exact ⟨_, _, word⟩
  · exfalso
    rcases range with long | ⟨bytes, corrected⟩
    · refine absurd ((bytelen_le_iff v.natAbs 255).2 ?_) (not_le.2 long)
      calc v.natAbs < 2 ^ 2039 := h
        _ ≤ 2 ^ (8 * 255) := Nat.pow_le_pow_right (by decide) (by decide)
    · rw [bytes, rawMantissa_255_ge_iff] at corrected
      exact absurd h (not_lt.2 corrected)
  · exact ⟨_, _, word⟩
  · exact ⟨_, _, word⟩

/-- ZERO of ENCODE reports the value: a word of a nonzero value has a nonzero exponent (R128). -/
theorem word_eq_zero_iff {v : Int} {w : Word} {ovf : Bool} (h : compactEncode v = .word w ovf) :
    w = 0#32 ↔ v = 0 := by
  constructor
  · rintro rfl
    by_contra hv
    exact absurd (one_le_exponent_of_compactEncode hv h) (by decide)
  · rintro rfl
    exact (compactEncode_zero_eq_word h).1

/-- NEG of ENCODE reports the value's sign (R128). -/
theorem word_sign_iff {v : Int} {w : Word} {ovf : Bool} (h : compactEncode v = .word w ovf) :
    w.getLsbD 23 = true ↔ v < 0 := by
  rcases eq_or_ne v 0 with rfl | hv
  · obtain ⟨rfl, -⟩ := compactEncode_zero_eq_word h
    simp
  · obtain ⟨-, sign, -⟩ := fields_of_compactEncode hv h
    rw [← compactSign, sign, decide_eq_true_iff]

/-- Settles O23: below 2^2039 ENCODE is the commit of a success, and its flags report the word and the value. -/
theorem encodeWritesWordAndFlags : Obligations.EncodeWritesWordAndFlags := by
  refine ⟨?_, by decide, by decide⟩
  intro dst src s v small
  obtain ⟨w, ovf, word⟩ := exists_word_of_natAbs_lt small
  refine ⟨_, w, ovf, exec_encode_word word, word, ?_, rfl, word_eq_zero_iff word, word_sign_iff word,
    committed_success _ _ s, sameWindow_cb dst w _ s⟩
  rw [commit_success, readCb_commitSuccess_cb]

end Sys2Proof.Proofs

/-!
Proofs of the statements of 41_retarget.md: the timespan and its clamp, the checks of NextTarget in their order, and
the command RETARGET that commits its answer.
-/

namespace Sys2Proof.Proofs

open Sys2Proof.Machine Sys2Proof.Laws Sys2Proof.Safety
open Sys2Proof.Config (HeightIncMode NegQuotMode)

/-! ## The timespan and its clamp (R145, R146) -/

theorem spanMin_eq (x : RetargetInputs) : spanMin x = (x.T : Int) / 4 := by
  simp [spanMin]

theorem spanMax_eq (x : RetargetInputs) : spanMax x = 4 * (x.T : Int) := by
  simp [spanMax]

theorem spanMin_le_spanMax (x : RetargetInputs) : spanMin x ≤ spanMax x :=
  (clampedSpan_bounds x).1.trans (clampedSpan_bounds x).2

/-- Saturating to bounds outside those of a clamp does not change what the clamp gives. -/
theorem clamp_saturate {lo a b hi : Int} (h : a ≤ b) (hlo : lo ≤ a) (hhi : b ≤ hi) (r : Int) :
    max a (min (max lo (min r hi)) b) = max a (min r b) := by
  omega

/-- Settles O27: the difference of two signed 64-bit numbers, and the clamp of a saturated span. -/
theorem rawSpanIsExact : Obligations.RawSpanIsExact := by
  refine ⟨fun s => ?_, fun x y lo hi hT hlo hhi raw => ?_⟩
  · have difference : rawSpan (retargetInputs s) = headerTime s.hdrE - headerTime s.hdrS := rfl
    obtain ⟨-, startLow, startHigh⟩ := headerTimeIsSignExtended s.hdrS
    obtain ⟨-, endLow, endHigh⟩ := headerTimeIsSignExtended s.hdrE
    exact ⟨difference, by omega, by omega⟩
  · have sameMin : spanMin y = spanMin x := by rw [spanMin, hT, spanMin]
    have sameMax : spanMax y = spanMax x := by rw [spanMax, hT, spanMax]
    rw [clampedSpan_eq, clampedSpan_eq, sameMin, sameMax, raw]
    exact clamp_saturate (spanMin_le_spanMax x) hlo hhi _

/-- Settles O28: every clause is arithmetic in T once the bounds and the clamp are written out. -/
theorem spanClampBounds : Obligations.SpanClampBounds := by
  refine ⟨fun x _ => ?_, fun x hT => ?_⟩
  · have minEq := spanMin_eq x
    have maxEq := spanMax_eq x
    have clamp := clampedSpan_eq x
    exact ⟨minEq, maxEq, by omega, by omega, clamp, fun _ => by omega, fun _ => ⟨by omega, fun _ => by omega⟩⟩
  · rw [spanMin_eq, spanMax_eq, hT]
    decide

/-! ## NextTarget's checks (R155) -/

/-- The checks in their order, as conditions on the inputs (R142, R155). -/
theorem nextTarget_eq_ite (hm : HeightIncMode) (nm : NegQuotMode) (x : RetargetInputs) :
    nextTarget hm nm x =
      if x.L = 0 then .config
      else if heightPlusOne hm x.hE % x.L ≠ 0 then .target (compactDecode x.bE)
      else if x.T = 0 then .config
      else if x.strict = true ∧ (x.hS : Int) ≠ (heightPlusOne hm x.hE : Int) - (x.L : Int) then .epoch
      else .target (min (quotient nm x) x.PL) := by
  simp only [nextTarget, retargetDue_eq, startMismatch_eq, ceilTarget_eq, Bool.not_eq_true', decide_eq_false_iff_not,
    Bool.and_eq_true, decide_eq_true_iff, and_comm]

theorem nextTarget_of_not_due {hm : HeightIncMode} (nm : NegQuotMode) {x : RetargetInputs} (hL : x.L ≠ 0)
    (hd : heightPlusOne hm x.hE % x.L ≠ 0) : nextTarget hm nm x = .target (compactDecode x.bE) := by
  rw [nextTarget_eq_ite, if_neg hL, if_pos hd]

/-- A result with a retarget due has a T to divide by, and is the quotient under the ceiling (R149). -/
theorem eq_min_of_nextTarget_of_due {hm : HeightIncMode} {nm : NegQuotMode} {x : RetargetInputs} {r : Int}
    (hd : retargetDue hm x = true) (h : nextTarget hm nm x = .target r) :
    0 < x.T ∧ r = min (quotient nm x) x.PL := by
  rcases nextTarget_cases hm nm x with ⟨-, e⟩ | ⟨-, notDue, -⟩ | ⟨-, -, -, e⟩ | ⟨-, -, -, -, -, e⟩ | ⟨-, -, hT, -, e⟩
  · cases e.symm.trans h
  · exact absurd (notDue.symm.trans hd) Bool.false_ne_true
  · cases e.symm.trans h
  · cases e.symm.trans h
  · exact ⟨Nat.pos_of_ne_zero hT, NextTargetOutcome.target.inj (h.symm.trans e)⟩

/-- A target register holds every result exactly (R150): a decoded value, a quotient, or the value of POW_LIMIT. -/
theorem targetValue_putTarget_of_nextTarget {hm : HeightIncMode} {nm : NegQuotMode} {s : State} {r : Int}
    (h : nextTarget hm nm (retargetInputs s) = .target r) : targetValue (putTarget r) = r := by
  rcases nextTarget_cases hm nm (retargetInputs s) with ⟨-, e⟩ | ⟨-, -, e⟩ | ⟨-, -, -, e⟩ | ⟨-, -, -, -, -, e⟩ |
    ⟨-, -, hT, -, e⟩ <;> cases h.symm.trans e
  · exact targetValue_putTarget_compactDecode _
  · have quotientFits : (quotient nm (retargetInputs s)).natAbs < 2 ^ 2048 :=
      (natAbs_quotient_lt nm _ (Nat.pos_of_ne_zero hT)).trans_le (Nat.pow_le_pow_right (by decide) (by decide))
    refine targetValue_putTarget ?_
    rcases min_choice (quotient nm (retargetInputs s)) (retargetInputs s).PL with e | e <;> rw [e]
    · exact quotientFits
    · exact natAbs_targetValue_lt s.powLimit

/-! ## The quotient of a non-negative product (R148) -/

/-- Both roundings agree where the product is not negative. -/
theorem quotient_of_nonneg (nm : NegQuotMode) {x : RetargetInputs} (h : 0 ≤ compactDecode x.bE * clampedSpan x) :
    quotient nm x = compactDecode x.bE * clampedSpan x / (x.T : Int) := by
  rw [quotient, retargetQuotient_eq, Int.tdiv_eq_ediv_of_nonneg h, Int.fdiv_eq_ediv_of_nonneg _ (Int.natCast_nonneg _),
    ite_self]

/-- The quotient lies between those of the clamp's bounds (R156 (c)). -/
theorem quotient_bounds_of_nonneg (nm : NegQuotMode) {x : RetargetInputs} (hT : 0 < x.T)
    (h : 0 ≤ compactDecode x.bE) :
    compactDecode x.bE * spanMin x / (x.T : Int) ≤ quotient nm x ∧ quotient nm x ≤ 4 * compactDecode x.bE := by
  obtain ⟨lower, upper⟩ := clampedSpan_bounds x
  have posT : (0 : Int) < x.T := by omega
  rw [quotient_of_nonneg nm (mul_nonneg h (clampedSpan_nonneg x))]
  refine ⟨Int.ediv_le_ediv posT (mul_le_mul_of_nonneg_left lower h), Int.ediv_le_of_le_mul posT ?_⟩
  calc compactDecode x.bE * clampedSpan x ≤ compactDecode x.bE * spanMax x := mul_le_mul_of_nonneg_left upper h
    _ = 4 * compactDecode x.bE * (x.T : Int) := by rw [spanMax_eq]; ring

/-! ## A state with no retarget due (R144) -/

/-- Reset with the given bits in HDR_E: its height + 1 is 1, no multiple of the 2016 of EPOCH_LEN. -/
def notDueState (bits : Word) : State :=
  { State.reset with hdrE := { Header.zero with bits := bits } }

theorem epochLen_notDueState (bits : Word) : (notDueState bits).epochLen.toNat = 2016 := rfl

theorem epochLen_notDueState_ne (bits : Word) : (notDueState bits).epochLen.toNat ≠ 0 := by
  rw [epochLen_notDueState]; decide

theorem notDueState_not_due (hm : HeightIncMode) (bits : Word) :
    heightPlusOne hm (notDueState bits).hdrE.height.toNat % (notDueState bits).epochLen.toNat ≠ 0 := by
  have height : (notDueState bits).hdrE.height.toNat = 0 := rfl
  have next : heightPlusOne hm 0 = 1 := if_pos (by decide)
  rw [height, next, epochLen_notDueState]; decide

/-- The bits 0x1E00FFFF are a target above POW_LIMIT's reset value. -/
theorem powLimit_notDueState_lt (bits : Word) :
    targetValue (notDueState bits).powLimit < compactDecode 0x1E00FFFF#32 := by
  have reset : targetValue (notDueState bits).powLimit = 2 ^ 224 - 1 := targetValue_powLimit_reset
  rw [reset]
  decide

/-- Settles O35: (a) is the clamp, (b) the ceiling, (c) the quotients of the clamp's bounds, and (d) that the inputs
are read from the operand registers. -/
theorem nextTargetProperties : Obligations.NextTargetProperties := by
  intro hm nm
  refine ⟨fun x _ => ?_, fun x r due h => ?_, ?_, fun x r due h nonneg => ?_, fun s t same => ?_⟩
  · rw [← spanMax_eq]
    exact clampedSpan_bounds x
  · obtain ⟨-, rfl⟩ := eq_min_of_nextTarget_of_due due h
    exact min_le_right _ _
  · have passThrough := nextTarget_of_not_due (x := retargetInputs (notDueState 0x1E00FFFF#32)) nm
      (epochLen_notDueState_ne 0x1E00FFFF#32) (notDueState_not_due hm 0x1E00FFFF#32)
    exact ⟨_, _, passThrough, rfl, powLimit_notDueState_lt _⟩
  · obtain ⟨hT, result⟩ := eq_min_of_nextTarget_of_due due h
    obtain ⟨lower, upper⟩ := quotient_bounds_of_nonneg nm hT nonneg
    exact ⟨lower, upper, result⟩
  · obtain ⟨-, -, hdrS, hdrE, timespan, epochLen, powLimit, ctrl⟩ := same
    rw [retargetInputs_congr hdrS hdrE timespan epochLen powLimit ctrl]

/-! ## RETARGET (R153) -/

/-- The error a NextTarget answer is committed with (R153). -/
def nextTargetError : NextTargetOutcome → Option CmdError
  | .config => some .config
  | .epoch => some .epoch
  | .target _ => none

/-- What RETARGET answers where NextTarget gives a target. -/
theorem exec_retarget_of_target {dst : Fin 4} {s : State} {r : Int}
    (h : nextTarget Config.heightIncMode Config.negQuotMode (retargetInputs s) = .target r) :
    exec (.retarget dst) s =
      .next (commitSuccess (.tg dst r)
        (retargetFlags Config.heightIncMode Config.negQuotMode (retargetInputs s) r) s) := by
  rw [exec_eq_commit, instrOutcome, retargetOutcome, h]
  rfl

/-- All that RETARGET can do: raise the error of a failed check, or commit NextTarget's result. -/
theorem exec_retarget_cases (dst : Fin 4) (s : State) :
    (∃ e, nextTargetError (nextTarget Config.heightIncMode Config.negQuotMode (retargetInputs s)) = some e ∧
      exec (.retarget dst) s = .next (raiseError e s)) ∨
    (∃ r, nextTarget Config.heightIncMode Config.negQuotMode (retargetInputs s) = .target r ∧
      exec (.retarget dst) s =
        .next (commitSuccess (.tg dst r)
          (retargetFlags Config.heightIncMode Config.negQuotMode (retargetInputs s) r) s)) := by
  have run := exec_eq_commit (.retarget dst) s
  rw [instrOutcome, retargetOutcome] at run
  cases o : nextTarget Config.heightIncMode Config.negQuotMode (retargetInputs s) with
  | config => rw [o] at run; exact .inl ⟨.config, rfl, run⟩
  | epoch => rw [o] at run; exact .inl ⟨.epoch, rfl, run⟩
  | target r => exact .inr ⟨r, rfl, exec_retarget_of_target o⟩

/-- The value in TG[dst] after a success is NextTarget's result. -/
theorem targetValue_readTg_of_target {dst : Fin 4} {s : State} {f : Flags} {r : Int}
    (h : nextTarget Config.heightIncMode Config.negQuotMode (retargetInputs s) = .target r) :
    targetValue (readTg dst (commitSuccess (.tg dst r) f s)) = r := by
  rw [readTg_commitSuccess_tg, targetValue_putTarget_of_nextTarget h]

/-! ## RETARGET's flags (R154) -/

/-- Without a retarget due only ZERO and NEG can be 1. -/
theorem retargetFlags_of_not_due {hm : HeightIncMode} (nm : NegQuotMode) {x : RetargetInputs}
    (h : retargetDue hm x = false) (r : Int) :
    retargetFlags hm nm x r = { Flags.clear with zero := decide (r = 0), neg := decide (r < 0) } := by
  simp only [retargetFlags, h, Bool.false_and]
  rfl

/-- No span is below the clamp's lower bound and above its upper one. -/
theorem not_spanLo_and_spanHi (hm : HeightIncMode) (nm : NegQuotMode) (x : RetargetInputs) (r : Int) :
    ¬ ((retargetFlags hm nm x r).spanLo = true ∧ (retargetFlags hm nm x r).spanHi = true) := by
  have bounds := spanMin_le_spanMax x
  simp only [retargetFlags, Bool.and_eq_true, decide_eq_true_iff]
  omega

/-- Settles O34: a RETARGET without error commits NextTarget's result with the flags of R154. -/
theorem retargetFlagsOfTheRule : Obligations.RetargetFlagsOfTheRule := by
  intro dst s t h noError x hp1 r
  rcases exec_retarget_cases dst s with ⟨e, -, h'⟩ | ⟨r', target, h'⟩ <;> cases h.symm.trans h'
  · cases noError
  · have result : r = r' := targetValue_readTg_of_target target
    rw [result]
    refine ⟨rfl, rfl, retargetDue_eq _ _, rfl, rfl, rfl, rfl, not_spanLo_and_spanHi _ _ _ _, rfl, rfl, rfl, ?_⟩
    exact fun notDue => retargetFlags_of_not_due _ notDue _

/-! ## RETARGET with no retarget due (R144) -/

/-- RETARGET with no retarget due, from every such state: the decoded bits, whatever else the registers hold. -/
theorem exec_retarget_of_not_due (dst : Fin 4) {s : State} (hL : s.epochLen.toNat ≠ 0)
    (hd : heightPlusOne Config.heightIncMode s.hdrE.height.toNat % s.epochLen.toNat ≠ 0) :
    ∃ t, exec (.retarget dst) s = .next t ∧
      targetValue (readTg dst t) = compactDecode s.hdrE.bits ∧
      (compactDecode s.hdrE.bits = 0 → (readTg dst t).sign = false) ∧
      t.flags = { Flags.clear with
        zero := decide (compactDecode s.hdrE.bits = 0), neg := decide (compactDecode s.hdrE.bits < 0) } ∧
      committed none s t ∧ sameWindowExcept (ofTg dst) s t := by
  have target := nextTarget_of_not_due (x := retargetInputs s) Config.negQuotMode hL hd
  have notDue : retargetDue Config.heightIncMode (retargetInputs s) = false :=
    (retargetDue_eq _ _).trans (decide_eq_false hd)
  have noSign (zero : compactDecode s.hdrE.bits = 0) : (putTarget (compactDecode s.hdrE.bits)).sign = false := by
    rw [zero, putTarget_zero]
  refine ⟨_, exec_retarget_of_target target, targetValue_readTg_of_target target, fun zero => ?_,
    retargetFlags_of_not_due _ notDue _, committed_success _ _ s, sameWindow_tg dst _ _ s⟩
  rw [readTg_commitSuccess_tg]
  exact noSign zero

/-- What RETARGET passes through into TG0 from `notDueState`. -/
theorem exec_retarget_notDueState (bits : Word) :
    ∃ t, exec (.retarget 0) (notDueState bits) = .next t ∧ t.status.err = none ∧ t.flags.due = false ∧
      targetValue (readTg 0 t) = compactDecode bits := by
  obtain ⟨t, h, value, -, flags, ⟨-, -, noError, -⟩, -⟩ :=
    exec_retarget_of_not_due 0 (epochLen_notDueState_ne bits) (notDueState_not_due _ bits)
  exact ⟨t, h, noError, by rw [flags]; rfl, value⟩

/-- Settles O31: NextTarget answers Decode(HDR_E.BITS) before it looks at any other input. -/
theorem retargetPassesThroughWhenNotDue : Obligations.RetargetPassesThroughWhenNotDue := by
  refine ⟨fun dst s => exec_retarget_of_not_due dst, ?above, ?negative⟩
  case above =>
    obtain ⟨t, h, noError, notDue, value⟩ := exec_retarget_notDueState 0x1E00FFFF#32
    refine ⟨_, t, h, noError, notDue, ?_⟩
    rw [value]
    exact powLimit_notDueState_lt _
  case negative =>
    obtain ⟨t, h, noError, notDue, value⟩ := exec_retarget_notDueState 0x03800001#32
    refine ⟨_, t, h, noError, notDue, ?_⟩
    rw [value]
    decide

/-! ## The order of the checks (R155) -/

/-- What an error leaves: its code in STATUS[11:8], and nothing else changed (R173, R185). -/
theorem raiseError_leaves (e : CmdError) (s : State) :
    committed (some e) s (raiseError e s) ∧ (raiseError e s).flags = s.flags ∧
    sameWindowExcept ofNothing s (raiseError e s) ∧
    (readReg .status (raiseError e s)).extractLsb' 8 4 = errCode (some e) :=
  ⟨committed_error e s, rfl, sameWindow_error e s, statusWord_err _⟩

/-- RETARGET completes in every state, with the error of NextTarget's answer. -/
theorem exec_retarget_completes (dst : Fin 4) (s : State) :
    ∃ t, exec (.retarget dst) s = .next t ∧
      t.status.err = nextTargetError (nextTarget Config.heightIncMode Config.negQuotMode (retargetInputs s)) ∧
      (t.status.err ≠ none → committed t.status.err s t ∧ t.flags = s.flags ∧ sameWindowExcept ofNothing s t) := by
  rcases exec_retarget_cases dst s with ⟨e, error, h⟩ | ⟨r, target, h⟩
  · obtain ⟨ends, flags, frame, -⟩ := raiseError_leaves e s
    exact ⟨_, h, error.symm, fun _ => ⟨ends, flags, frame⟩⟩
  · exact ⟨_, h, by rw [target]; rfl, fun error => absurd rfl error⟩

/-- Settles O33: the error committed is that of NextTarget's if-chain, and STATUS[11:8] is its code. -/
theorem retargetChecksInOrder : Obligations.RetargetChecksInOrder := by
  refine ⟨fun w e s inFlight illegal => ?_, ?_⟩
  · have turn : engineTurn s = .next (raiseError .illegal s) := by
      rw [engineTurn_busy inFlight, wordOutcome, illegal]; rfl
    exact ⟨_, turn, raiseError_leaves .illegal s⟩
  · intro dst s hp1 L
    obtain ⟨t, h, error, onError⟩ := exec_retarget_completes dst s
    rw [nextTarget_eq_ite] at error
    simp only [apply_ite nextTargetError] at error
    refine ⟨t, h, error, ?_, onError⟩
    calc (readReg .status t).extractLsb' 8 4 = errCode t.status.err := statusWord_err t
      _ = _ := by rw [error]; simp only [apply_ite errCode]; rfl

end Sys2Proof.Proofs

/-!
Proofs of the statements of 42_control.md: issue (R171), writes while Busy (R174) and illegal words (R177).
-/

namespace Sys2Proof.Proofs

open Sys2Proof.Machine Sys2Proof.Laws

/-! ## Issue (R171) -/

theorem windowReg_cmd_offset : windowReg 0x000C = .cmd := rfl

theorem hostWriteReg_cmd_of_idle (w : Word) {s : State} (h : s.engine = .idle) :
    hostWriteReg .cmd w s = issue w s := by
  rcases hostWriteReg_cases .cmd w s with ⟨status, -⟩ | ⟨-, isBusy, -⟩ | ⟨-, -, issued⟩ | ⟨-, notCmd, -, -⟩
  · cases status
  · rw [busy_of_idle h] at isBusy; cases isBusy
  · exact issued
  · exact absurd rfl notCmd

theorem hostWrite_cmd_of_idle (w : Word) {s : State} (h : s.engine = .idle) :
    hostWrite 0x000C w s = issue w s := by
  rw [hostWrite, windowReg_cmd_offset, hostWriteReg_cmd_of_idle w h]

/-- STATUS.BUSY as the host reads it (R24, R36). -/
theorem readOffset_status_busy (s : State) : (readOffset 0x0008 s).getLsbD 0 = busy s :=
  statusWord_busy s

/-- Settles O49: a write to CMD while Idle is `issue`, which looks at no bit of the word. -/
theorem issueAcceptsAnyWord : Obligations.IssueAcceptsAnyWord := by
  intro s w idle
  rw [hostWrite_cmd_of_idle w idle]
  have nowBusy : busy (issue w s) = true := busy_of_busy (issue_engine w s)
  exact ⟨rfl, (readOffset_status_busy _).trans nowBusy⟩

/-! ## Illegal words (R177) -/

/-- The engine's turn with an illegal word in flight raises ERR_ILLEGAL. -/
theorem engineTurn_of_illegal {s : State} {w : Word} {e : DecodeError} (inFlight : s.engine = .busy w)
    (illegal : decodeWord w = .error e) : engineTurn s = .next (raiseError .illegal s) := by
  rw [engineTurn_busy inFlight, wordOutcome, illegal]; rfl

/-- Settles O40: the issue does not decode the word; the engine's turn does, and raises ERR_ILLEGAL. -/
theorem illegalWordsCommitErrIllegal : Obligations.IllegalWordsCommitErrIllegal := by
  refine ⟨fun s w idle => ?_, fun s w e inFlight illegal => ?_⟩
  · rw [hostWrite_cmd_of_idle w idle, issue_engine]
  · exact ⟨_, engineTurn_of_illegal inFlight illegal, raiseError_engine .illegal s, rfl, rfl, rfl,
      raiseError_flags .illegal s, raiseError_tg .illegal s, raiseError_cb .illegal s, sameWindow_error .illegal s⟩

/-! ## Writes while Busy (R174) -/

theorem windowReg_status_offset : windowReg 0x0008 = .status := rfl

/-- STATUS stands at one offset only (R63). -/
theorem windowReg_ne_status {off : Nat} (h4 : off % 4 = 0) (h : off < 0x2000) (hs : off ≠ 0x0008) :
    windowReg off ≠ .status := by
  intro status
  have inverse := regOffset_windowReg h4 h (by rw [status]; decide)
  rw [status] at inverse
  exact hs inverse.symm

/-- A write to STATUS acts whether the engine is Idle or Busy (R24). -/
theorem hostWrite_status (v : Word) (s : State) : hostWrite 0x0008 v s = clearStatus v s := by
  rw [hostWrite, windowReg_status_offset, hostWriteReg]

theorem hostWrite_of_busy {off : Nat} (hr : windowReg off ≠ .status) (v : Word) {s : State} {w : Word}
    (h : s.engine = .busy w) : hostWrite off v s = dropWrite s :=
  hostWriteReg_of_busy hr (busy_of_busy h)

theorem accessEffect_write_of_served {off : Nat} (v : Word) (s : State) (h4 : off % 4 = 0) (h : off < 0x2000) :
    accessEffect (.write off .bits32 v) s = hostWrite off v s := by
  rw [accessEffect, if_pos (served_write v h4 h)]

/-- A transaction that gets a bus error has no effect (R61, R184). -/
theorem accessEffect_of_not_served {a : Access} (h : ¬ served a = true) (s : State) : accessEffect a s = s := by
  cases a with
  | read off width => rfl
  | write off width v => rw [accessEffect, if_neg h]

/-- Settles O50: a served write to any word but STATUS is `dropWrite`, one to STATUS is `clearStatus`, and a write
that is not served reaches no register. -/
theorem writesWhileBusyAreDropped : Obligations.WritesWhileBusyAreDropped := by
  intro s w off width v inFlight
  refine ⟨fun h4 h hs => ?_, ?_, fun unserved => ?_⟩
  · rw [accessEffect_write_of_served v s h4 h, hostWrite_of_busy (windowReg_ne_status h4 h hs) v inFlight, dropWrite]
  · rw [accessEffect_write_of_served v s (by decide) (by decide), hostWrite_status, clearStatus]
  · refine accessEffect_of_not_served ?_ s
    rw [served_iff]
    exact unserved

end Sys2Proof.Proofs

/-!
Proofs of the statements of 60_exceptions.md: which errors each command and each transaction can leave (R182), and
the interrupt output (R186).
-/

namespace Sys2Proof.Proofs

open Sys2Proof.Machine Sys2Proof.Laws

/-! ## The error of a commit (R173) -/

/-- The error code an outcome is committed with: none for a success (R173). -/
def outcomeError : CommandOutcome → Option CmdError
  | .success _ _ => none
  | .error code => some code

@[simp] theorem outcomeError_success (d : Dest) (f : Flags) : outcomeError (.success d f) = none := rfl

@[simp] theorem outcomeError_error (code : CmdError) : outcomeError (.error code) = some code := rfl

theorem commit_err (o : CommandOutcome) (s : State) : (commit o s).status.err = outcomeError o := by
  cases o with
  | success d f => rw [commit_success, commitSuccess_status, outcomeError_success]
  | error code => rw [commit_error, raiseError_status, outcomeError_error]

theorem err_of_exec {i : Instr} {s t : State} (h : exec i s = .next t) :
    t.status.err = outcomeError (instrOutcome i s) := by
  rw [exec_next h, commit_err]

/-! ## The errors of the commands (R182) -/

/-- ENCODE's only failure is RANGE (R127). -/
theorem encodeOutcome_error_cases (dst src : Fin 4) (s : State) :
    outcomeError (encodeOutcome dst src s) = none ∨ outcomeError (encodeOutcome dst src s) = some .range := by
  cases answer : compactEncode (targetValue (readTg src s)) with
  | range => exact .inr (by rw [encodeOutcome_range answer, outcomeError_error])
  | word w ovf => exact .inl (by rw [encodeOutcome_word answer, outcomeError_success])

/-- RETARGET's failures are those of NextTarget (R153). -/
theorem retargetOutcome_error_cases (dst : Fin 4) (s : State) :
    let e := outcomeError (retargetOutcome Config.heightIncMode Config.negQuotMode dst s)
    e = none ∨ e = some .config ∨ e = some .epoch := by
  rw [retargetOutcome_eq]
  cases nextTarget Config.heightIncMode Config.negQuotMode (retargetInputs s) with
  | config => exact .inr (.inl rfl)
  | epoch => exact .inr (.inr rfl)
  | target r => exact .inl rfl

/-- No command fails with ERR_ILLEGAL: the code is left to the words that are no command. -/
theorem instrOutcome_error_ne_illegal (i : Instr) (s : State) : outcomeError (instrOutcome i s) ≠ some .illegal := by
  intro illegal
  cases i with
  | nop => cases illegal
  | decode dst src => cases illegal
  | encode dst src =>
    rcases encodeOutcome_error_cases dst src s with e | e <;> cases e.symm.trans illegal
  | retarget dst =>
    rcases retargetOutcome_error_cases dst s with e | e | e <;> cases e.symm.trans illegal

theorem wordOutcome_error_illegal_iff (w : Word) (s : State) :
    outcomeError (wordOutcome w s) = some .illegal ↔ ∃ e, decodeWord w = .error e := by
  cases decoded : decodeWord w with
  | ok i =>
    rw [wordOutcome_ok decoded]
    exact iff_of_false (instrOutcome_error_ne_illegal i s) (by rintro ⟨_, ⟨⟩⟩)
  | error e =>
    rw [wordOutcome, decoded]
    exact iff_of_true rfl ⟨e, rfl⟩

theorem err_of_engineTurn {s t : State} {w : Word} (inFlight : s.engine = .busy w) (h : engineTurn s = .next t) :
    t.status.err = outcomeError (wordOutcome w s) := by
  rw [engineTurn_busy inFlight] at h
  rw [← Host.Outcome.next.inj h, commit_err]

/-! ## Transactions raise no error (R182) -/

/-- Of all host writes only an issue touches ERR, and it clears it (R171). -/
theorem hostWriteReg_err_cases (r : WindowReg) (v : Word) (s : State) :
    (hostWriteReg r v s).status.err = s.status.err ∨ (hostWriteReg r v s).status.err = none := by
  rcases hostWriteReg_cases r v s with ⟨-, e⟩ | ⟨-, -, e⟩ | ⟨-, -, e⟩ | ⟨-, -, -, e⟩ <;> rw [e]
  · exact .inl rfl -- STATUS
  · exact .inl rfl -- dropped
  · exact .inr rfl -- issued
  · obtain ⟨-, status, -⟩ := writeReg_keeps r v s
    exact .inl (by rw [status])

theorem serve_err_cases (a : Access) (s : State) :
    (serve a s).status.err = s.status.err ∨ (serve a s).status.err = none := by
  rw [serve_status]
  rcases accessEffect_cases a s with e | ⟨r, v, e⟩ <;> rw [e]
  · exact .inl rfl
  · exact hostWriteReg_err_cases r v s

/-- Settles O38: every commit leaves the error of its outcome, and the outcomes say which errors there are. -/
theorem errorsEachCommandRaises : Obligations.ErrorsEachCommandRaises := by
  refine ⟨fun s t h => err_of_exec h, fun dst src s t h => err_of_exec h, fun dst src s t h => ?_,
    fun dst s t h => ?_, fun w s t inFlight h => ?_, serve_err_cases⟩
  · rw [err_of_exec h]
    exact encodeOutcome_error_cases dst src s
  · rw [err_of_exec h]
    exact retargetOutcome_error_cases dst s
  · rw [err_of_engineTurn inFlight h]
    exact wordOutcome_error_illegal_iff w s

/-! ## The interrupt output (R186) -/

/-- STATUS[1] reads DONE (R24). -/
theorem statusWord_done (s : State) : (statusWord s).getLsbD 1 = s.status.done := by
  change BitVec.getLsbD (_ ++ BitVec.ofBool s.status.done ++ BitVec.ofBool (busy s)) 1 = _
  rw [BitVec.getLsbD_append, BitVec.getLsbD_append]
  simp

/-- `irq` is what the host can compute from CTRL and STATUS. -/
theorem irq_eq_host_bits (s : State) :
    irq s = ((readOffset 0x0004 s).getLsbD 0 && (readOffset 0x0008 s).getLsbD 1) := by
  have enable : (readOffset 0x0004 s).getLsbD 0 = s.ctrl.irqEn := getLsbD_ctrlWord s.ctrl 0
  have done : (readOffset 0x0008 s).getLsbD 1 = s.status.done := statusWord_done s
  rw [enable, done, irq]

/-- Every commit sets DONE, so it raises `irq` where IRQ_EN allows. -/
theorem irq_commit (o : CommandOutcome) (s : State) : irq (commit o s) = s.ctrl.irqEn := by
  obtain ⟨-, done, -, -, -, -, ctrl⟩ := commit_ends o s
  rw [irq, done, ctrl, Bool.and_true]

theorem irq_issue (w : Word) (s : State) : irq (issue w s) = false := by
  rw [irq, issue_status, Bool.and_false]

theorem irq_clearStatus (v : Word) (s : State) : irq (clearStatus v s) = (irq s && !v.getLsbD 1) := by
  rw [irq, clearStatus_ctrl, clearStatus_status, irq, Bool.and_assoc]

theorem irq_resetCycle (a : Option Access) (s : State) : irq (resetCycle a s) = false := by
  rw [irq, resetCycle_ctrl, State.reset, Bool.false_and]

theorem windowReg_ctrl_offset : windowReg 0x0004 = .ctrl := rfl

/-- A write to CTRL while Idle: IRQ_EN gates a DONE that may stand from before. -/
theorem irq_hostWrite_ctrl_of_idle (v : Word) {s : State} (h : s.engine = .idle) :
    irq (hostWrite 0x0004 v s) = (v.getLsbD 0 && s.status.done) := by
  rw [hostWrite, windowReg_ctrl_offset, hostWriteReg_of_idle (by decide) (by decide) (busy_of_idle h)]
  rfl

/-- Settles O54: `irq` after each operation that touches IRQ_EN or DONE; WDROP is no input of it. -/
theorem irqIsEnabledDone : Obligations.IrqIsEnabledDone := by
  refine ⟨irq_eq_host_bits, fun i s t h => ?commit, irq_commit (.error .illegal), fun s v idle enable => ?enable,
    fun s v clear => ?clearDone, fun s v idle => ?issue, fun s v idle disable => ?disable, irq_resetCycle, fun s => rfl⟩
  case commit => rw [exec_next h, irq_commit]
  case enable => rw [irq_hostWrite_ctrl_of_idle v idle, enable, Bool.true_and]
  case clearDone => rw [hostWrite_status, irq_clearStatus, clear, Bool.not_true, Bool.and_false]
  case issue => rw [hostWrite_cmd_of_idle v idle, irq_issue]
  case disable => rw [irq_hostWrite_ctrl_of_idle v idle, disable, Bool.false_and]

end Sys2Proof.Proofs

/-!
Proofs of further statements of 30_encoding.md and of 20_memory.md section 1: the round trip of a command's word, its
byte lanes (R62, R97) and the assembler (R99).
-/

namespace Sys2Proof.Proofs

open Sys2Proof.Machine Sys2Proof.Laws

/-- Settles O2: the decoder leaves no bit of a word unread, so only a command's own word decodes to it. -/
theorem decodeInvertsEncode : Obligations.DecodeInvertsEncode :=
  decodeWord_eq_ok_iff

/-! ## Byte lanes (R62, R97) -/

/-- The byte decoder takes a word's four lanes and answers what the word decoder does. -/
theorem decodeBytes_lanesOfWord (w : Word) (rest : List Byte) :
    decodeBytes (lanesOfWord w ++ rest) = (decodeWord w).map fun i => (i, rest) := by
  have front : decodeBytes (lanesOfWord w ++ rest) =
      match decodeWord (wordOfLanes (w.extractLsb' 0 8) (w.extractLsb' 8 8) (w.extractLsb' 16 8)
        (w.extractLsb' 24 8)) with
      | .ok i => .ok (i, rest)
      | .error e => .error e := rfl
  rw [front, wordOfLanes_lanes]
  cases decodeWord w <;> rfl

/-- A table word that fits its bit count and 32 bits is decoded as the word of its number. -/
theorem decodeTableWord_of_lt {nbits w : Nat} (fits : w < 2 ^ nbits) (word : w < 2 ^ 32) :
    decodeTableWord nbits w = (decodeWord (BitVec.ofNat 32 w)).toOption := by
  have lanes := decodeBytes_lanesOfWord (BitVec.ofNat 32 w) []
  rw [List.append_nil] at lanes
  simp only [decodeTableWord, Nat.mod_eq_of_lt fits, if_pos word, lanes]
  cases decodeWord (BitVec.ofNat 32 w) <;> rfl

/-- Settles O5: the lanes make the word again, and both decoders ask the word decoder. -/
theorem byteLanesCarryTheWord : Obligations.ByteLanesCarryTheWord := by
  refine ⟨fun w i rest h => ?_, fun w e rest h => ?_, fun nbits w i fits word => ?_⟩
  · rw [decodeBytes_lanesOfWord, h]; rfl
  · rw [decodeBytes_lanesOfWord, h]; rfl
  · rw [decodeTableWord_of_lt fits word]
    cases decodeWord (BitVec.ofNat 32 w) <;> simp [Except.toOption]

/-! ## The assembler (R99) -/

theorem lineInstr_asmLine (i : Instr) : lineInstr i.asmLine = some i := by
  obtain ⟨-, -, parsed⟩ := wellFormedAndEncoded i
  exact parsed

/-- The operand lists a line may have: one register of the right file per slot. -/
theorem filesOk_cases {l : AsmLine} (h : l.filesOk = true) :
    l = ⟨.nop, []⟩ ∨ (∃ d s, l = ⟨.decode, [.tg d, .cb s]⟩) ∨ (∃ d s, l = ⟨.encode, [.cb d, .tg s]⟩) ∨
    ∃ d, l = ⟨.retarget, [.tg d]⟩ := by
  obtain ⟨mnemonic, operands⟩ := l
  unfold AsmLine.filesOk at h
  split at h
  · simp_all
  · simp_all
  · simp_all
  · simp_all
  · cases h

/-- The checks of R99 let through only the lines commands are written as. -/
theorem exists_asmLine_of_wellFormed {l : AsmLine} (h : l.wellFormed = true) : ∃ i : Instr, l = i.asmLine := by
  obtain ⟨files, indices⟩ := (Bool.and_eq_true _ _).mp h
  rcases filesOk_cases files with rfl | ⟨d, s, rfl⟩ | ⟨d, s, rfl⟩ | ⟨d, rfl⟩
  · exact ⟨.nop, rfl⟩
  · obtain ⟨hd, hs⟩ : d < 4 ∧ s < 4 := by simpa [AsmReg.indexOk] using indices
    exact ⟨.decode ⟨d, hd⟩ ⟨s, hs⟩, rfl⟩
  · obtain ⟨hd, hs⟩ : d < 4 ∧ s < 4 := by simpa [AsmReg.indexOk] using indices
    exact ⟨.encode ⟨d, hd⟩ ⟨s, hs⟩, rfl⟩
  · have hd : d < 4 := by simpa [AsmReg.indexOk] using indices
    exact ⟨.retarget ⟨d, hd⟩, rfl⟩

theorem lineInstr_of_not_wellFormed {l : AsmLine} (h : l.wellFormed = false) : lineInstr l = none := by
  rw [lineInstr, h]; rfl

theorem lineInstr_eq_some_iff (l : AsmLine) (i : Instr) : lineInstr l = some i ↔ l = i.asmLine := by
  refine ⟨fun h => ?_, fun h => h ▸ lineInstr_asmLine i⟩
  cases checked : l.wellFormed with
  | false => cases (lineInstr_of_not_wellFormed checked).symm.trans h
  | true =>
    obtain ⟨j, rfl⟩ := exists_asmLine_of_wellFormed checked
    cases (lineInstr_asmLine j).symm.trans h
    rfl

theorem lineInstr_eq_none_iff (l : AsmLine) : l.wellFormed = false ↔ lineInstr l = none := by
  refine ⟨lineInstr_of_not_wellFormed, fun h => ?_⟩
  by_contra checked
  obtain ⟨j, rfl⟩ := exists_asmLine_of_wellFormed (Bool.not_eq_false _ ▸ checked)
  cases (lineInstr_asmLine j).symm.trans h

/-- The assembler reads the text of a command's line as that line. -/
theorem parseLine_asmText (i : Instr) : parseLine (asmText i.asmLine).toList = some i.asmLine := by
  cases i with
  | nop => decide
  | decode dst src => revert dst src; decide
  | encode dst src => revert dst src; decide
  | retarget dst => revert dst; decide

theorem assemble_asmText (i : Instr) : assemble (asmText i.asmLine) = some (encodeInstr i) := by
  rw [assemble, parseLine_asmText, Option.bind_some, lineInstr_asmLine, Option.map_some]

/-- What assembles passed through a command. -/
theorem exists_instr_of_assemble {text : String} {w : Word} (h : assemble text = some w) :
    ∃ i : Instr, w = encodeInstr i := by
  obtain ⟨i, -, rfl⟩ := Option.map_eq_some_iff.1 h
  exact ⟨i, rfl⟩

/-- Settles O6: the checks and the parser in general, and the named texts evaluated. -/
theorem assemblerAcceptsExactlyCommands : Obligations.AssemblerAcceptsExactlyCommands :=
  ⟨lineInstr_eq_some_iff, lineInstr_eq_none_iff, assemble_asmText, fun _ _ => exists_instr_of_assemble,
    by decide, by decide, by decide, by decide, by decide, by decide, by decide, by decide, by decide⟩

end Sys2Proof.Proofs

/-!
Proofs of further statements of 10_state.md, 00_scope.md and 20_memory.md: target-format values (R14, R26), the bits
the host sees (R23, R24, R32), writes to STATUS (R24) and the words a write leaves alone (R65, R66).
-/

namespace Sys2Proof.Proofs

open Sys2Proof.Machine Sys2Proof.Laws

/-! ## `value` and `put` (R14, R26) -/

/-- Settles O11: the magnitude of a value is MAG, and `put` writes the magnitude and the sign. -/
theorem putAndValueAgree : Obligations.PutAndValueAgree := by
  refine ⟨fun x => ?_, (targetValue_eq_zero_iff _).2 rfl, fun v fits => ?_⟩
  · rw [← abs_le, Int.abs_eq_natAbs, Int.le_sub_one_iff]
    exact_mod_cast natAbs_targetValue_lt x
  · have value := targetValue_putTarget fits
    refine ⟨value, ?_, decide_eq_true_iff⟩
    rw [← natAbs_targetValue, value]

/-! ## The bits the host sees (R23, R24, R32) -/

/-- Fields side by side are digits of the word's number. -/
theorem toNat_append_eq_add {m n : Nat} (x : BitVec m) (y : BitVec n) :
    (x ++ y).toNat = x.toNat * 2 ^ n + y.toNat := by
  rw [BitVec.toNat_append, ← Nat.shiftLeft_add_eq_or_of_lt y.isLt, Nat.shiftLeft_eq]

/-- Settles O55: each word is its fields side by side. -/
theorem hostVisibleBitPositions : Obligations.HostVisibleBitPositions := by
  intro s
  refine ⟨?ctrl, ?status, ?flags⟩
  case ctrl =>
    simp only [readReg, ctrlWord, toNat_append_eq_add, BitVec.toNat_ofBool, BitVec.toNat_ofNat]
    omega
  case status =>
    simp only [readReg, statusWord, toNat_append_eq_add, BitVec.toNat_ofBool, BitVec.toNat_ofNat]
    omega
  case flags =>
    simp only [readReg, flagsWord, toNat_append_eq_add, BitVec.toNat_ofBool, BitVec.toNat_ofNat]
    omega

/-! ## Writes to STATUS (R24) -/

theorem readReg_clearStatus {r : WindowReg} (hr : r ≠ .status) (v : Word) (s : State) :
    readReg r (clearStatus v s) = readReg r s :=
  readReg_congr r rfl rfl rfl rfl rfl rfl rfl rfl rfl (fun h => absurd h hr) (fun _ => rfl)

/-- ERR and BUSY read as before a write to STATUS. -/
theorem statusWord_clearStatus (v : Word) (s : State) :
    (statusWord (clearStatus v s)).extractLsb' 8 4 = (statusWord s).extractLsb' 8 4 ∧
    (statusWord (clearStatus v s)).getLsbD 0 = (statusWord s).getLsbD 0 := by
  rw [statusWord_err, statusWord_err, statusWord_busy, statusWord_busy]
  exact ⟨rfl, rfl⟩

/-- Settles O51: the served write is `clearStatus`, which looks at bits 1 and 2 alone. -/
theorem statusWritesClearDoneAndWdrop : Obligations.StatusWritesClearDoneAndWdrop := by
  intro s v t
  have served := serve_write v s (off := 0x0008) (by decide) (by decide)
  have cleared : t = clearStatus v s := hostWrite_status v s
  obtain ⟨err, busy⟩ := statusWord_clearStatus v s
  refine ⟨served, ?_⟩
  rw [cleared]
  refine ⟨rfl, fun h => ?_, fun h => ?_, fun h => ?_, fun h => ?_, err, busy, fun r hr => readReg_clearStatus hr v s⟩ <;>
    simp only [clearStatus_status, h, Bool.not_true, Bool.not_false, Bool.and_false, Bool.and_true]

/-! ## Writes of one word (R65, R66) -/

/-- Settles O45: while Idle the host's write is the write of that word, which touches no other. -/
theorem writesTouchOneWord : Obligations.WritesTouchOneWord := by
  intro s r v idle notCmd notStatus
  rw [hostWriteReg_of_idle notStatus notCmd (busy_of_idle idle)]
  obtain ⟨engine, -, -, -, inputs, port⟩ := writeReg_keeps r v s
  refine ⟨fun r' other => readReg_writeReg_other other v s, engine.trans idle, inputs, port, ?_⟩
  rintro (rfl | rfl | rfl) <;> rfl

/-! ## Lists of word writes (R66, R100) -/

/-- A word that takes the value written to it, and is no command or status word. -/
def WordTakes (p : WindowReg × Word) : Prop :=
  p.1 ≠ .status ∧ p.1 ≠ .cmd ∧ ∀ s, readReg p.1 (writeReg p.1 p.2 s) = p.2

/-- The transactions that write a list of words, in its order. -/
def wordWrites (ws : List (WindowReg × Word)) : List Access :=
  ws.map fun p => writeWord (regOffset p.1) p.2

/-- The answer of the port is no register. -/
theorem readReg_port (r : WindowReg) (p : Option BusResponse) (s : State) :
    readReg r { s with port := p } = readReg r s :=
  readReg_congr r rfl rfl rfl rfl rfl rfl rfl rfl rfl (fun _ => statusWord_congr rfl rfl) (fun _ => rfl)

/-- One served write of a word while Idle: the word takes the value, and nothing else changes. -/
theorem serve_writeWord_of_idle {p : WindowReg × Word} (takes : WordTakes p) {s : State} (idle : s.engine = .idle) :
    let t := serve (writeWord (regOffset p.1) p.2) s
    t.engine = .idle ∧ t.status = s.status ∧ t.flags = s.flags ∧ readReg p.1 t = p.2 ∧
    ∀ r, r ≠ p.1 → readReg r t = readReg r s := by
  obtain ⟨notStatus, notCmd, lands⟩ := takes
  obtain ⟨aligned, inside⟩ := regOffset_aligned_lt p.1
  obtain ⟨engine, status, -, flags, -⟩ := writeReg_keeps p.1 p.2 s
  intro t
  have written : t = { writeReg p.1 p.2 s with port := some .okWrite } := by
    simp only [t, writeWord]
    rw [serve_write p.2 s aligned inside, hostWrite, windowReg_regOffset,
      hostWriteReg_of_idle notStatus notCmd (busy_of_idle idle)]
  rw [written]
  simp only [readReg_port]
  exact ⟨engine.trans idle, status, flags, lands s, fun r other => readReg_writeReg_other other p.2 s⟩

/-- What a list of word writes keeps while Idle: the engine, STATUS, FLAGS and every word not in the list. -/
theorem serveAll_wordWrites_keeps {ws : List (WindowReg × Word)} (takes : ∀ p ∈ ws, WordTakes p) {s : State}
    (idle : s.engine = .idle) :
    let t := serveAll (wordWrites ws) s
    t.engine = .idle ∧ t.status = s.status ∧ t.flags = s.flags ∧
    ∀ r, r ∉ ws.map Prod.fst → readReg r t = readReg r s := by
  induction ws generalizing s with
  | nil => exact ⟨idle, rfl, rfl, fun _ _ => rfl⟩
  | cons p ws ih =>
    obtain ⟨takesFirst, takesRest⟩ := List.forall_mem_cons.1 takes
    obtain ⟨engine, status, flags, -, frame⟩ := serve_writeWord_of_idle takesFirst idle
    obtain ⟨engine', status', flags', frame'⟩ := ih takesRest engine
    refine ⟨engine', status'.trans status, flags'.trans flags, fun r absent => ?_⟩
    obtain ⟨notFirst, notRest⟩ := not_or.1 (mt List.mem_cons.2 absent)
    exact (frame' r notRest).trans (frame r notFirst)

/-- Each word of a list without repeats reads back its value. -/
theorem readReg_serveAll_wordWrites {ws : List (WindowReg × Word)} (takes : ∀ p ∈ ws, WordTakes p)
    (distinct : (ws.map Prod.fst).Nodup) {s : State} (idle : s.engine = .idle) {p : WindowReg × Word} (hp : p ∈ ws) :
    readReg p.1 (serveAll (wordWrites ws) s) = p.2 := by
  induction ws generalizing s with
  | nil => cases hp
  | cons q ws ih =>
    obtain ⟨takesFirst, takesRest⟩ := List.forall_mem_cons.1 takes
    obtain ⟨fresh, distinctRest⟩ := List.nodup_cons.1 distinct
    obtain ⟨engine, -, -, lands, -⟩ := serve_writeWord_of_idle takesFirst idle
    rcases List.mem_cons.1 hp with rfl | later
    · obtain ⟨-, -, -, frame⟩ := serveAll_wordWrites_keeps takesRest engine
      exact (frame p.1 fresh).trans lands
    · exact ih takesRest distinctRest engine later

/-! ## The host's `wtime` (R31, R100) -/

/-- The two words of `wtime`, the low one first. -/
def timeWords (side : HeaderSide) (t : Int) : List (WindowReg × Word) :=
  [(.hdr side .timeLo, (BitVec.ofInt 64 t).extractLsb' 0 32), (.hdr side .timeHi, (BitVec.ofInt 64 t).extractLsb' 32 32)]

theorem expandLine_wtime (side : HeaderSide) (t : Int) :
    expandLine (.wtime (headerOffset side .timeLo) t) = wordWrites (timeWords side t) := by
  cases side <;> rfl

theorem timeWords_take (side : HeaderSide) (t : Int) : ∀ p ∈ timeWords side t, WordTakes p := by
  have takes (field : HeaderField) (v : Word) : WordTakes (.hdr side field, v) :=
    ⟨nofun, nofun, readReg_writeReg_hdr side field v⟩
  simp only [timeWords, List.forall_mem_cons]
  exact ⟨takes _ _, takes _ _, nofun⟩

theorem timeWords_nodup (side : HeaderSide) (t : Int) : ((timeWords side t).map Prod.fst).Nodup := by
  simp [timeWords]

/-- A 64-bit number cut into two words and put together again. -/
theorem append_words (x : BitVec 64) : (x.extractLsb' 32 32 ++ x.extractLsb' 0 32 : BitVec 64) = x :=
  (BitVec.extractLsb'_append_extractLsb'_eq_extractLsb' rfl).trans BitVec.extractLsb'_eq_self

/-- Settles O48: the two words read back, and put together they are the timestamp in 64 bits. -/
theorem timeWordsCarryTheTimestamp : Obligations.TimeWordsCarryTheTimestamp := by
  intro s side t idle low high
  have reads {p} (hp : p ∈ timeWords side t) :=
    readReg_serveAll_wordWrites (timeWords_take side t) (timeWords_nodup side t) idle hp
  have lo := reads (.head _)
  have hi := reads (.tail _ (.head _))
  rw [← expandLine_wtime] at lo hi
  simp only [readReg, headerWord] at lo hi
  rw [headerTime, lo, hi, append_words, BitVec.toInt_ofInt_eq_self (by decide) low (Int.lt_of_le_sub_one high)]

/-! ## The host's `wtarget` and `rtarget` (R26, R100) -/

theorem magWord_eq_ofNat (m : Magnitude) (k : Fin 64) : magWord m k = BitVec.ofNat 32 (m.toNat >>> (32 * k.val)) :=
  rfl

/-- The low `n` words of a number, least significant first, make its remainder. -/
theorem magnitudeOfWords_range (n a : Nat) :
    magnitudeOfWords ((List.range n).map fun k => BitVec.ofNat 32 (a >>> (32 * k))) = a % 2 ^ (32 * n) := by
  induction n generalizing a with
  | zero => simp [magnitudeOfWords, Nat.mod_one]
  | succ n ih =>
    have shifted (k : Nat) : a >>> (32 * (k + 1)) = (a >>> 32) >>> (32 * k) := by
      rw [← Nat.shiftRight_add]; congr 1; omega
    have bits : 2 ^ (32 * (n + 1)) = 2 ^ 32 * 2 ^ (32 * n) := by rw [← pow_add]; congr 1; omega
    calc magnitudeOfWords ((List.range (n + 1)).map fun k => BitVec.ofNat 32 (a >>> (32 * k)))
      _ = a % 2 ^ 32 +
          2 ^ 32 * magnitudeOfWords ((List.range n).map fun k => BitVec.ofNat 32 ((a >>> 32) >>> (32 * k))) := by
        rw [List.range_succ_eq_map, List.map_cons, List.map_map, magnitudeOfWords]
        simp only [Function.comp_def, Nat.succ_eq_add_one, shifted]
        rfl
      _ = a % 2 ^ (32 * (n + 1)) := by rw [ih, bits, Nat.mod_mul, Nat.shiftRight_eq_div_pow]

/-- The 64 words of a number below 2^2048 make the number again. -/
theorem magnitudeOfWords_finRange {a : Nat} (h : a < 2 ^ 2048) :
    magnitudeOfWords ((List.finRange 64).map fun k : Fin 64 => BitVec.ofNat 32 (a >>> (32 * k.val))) = a := by
  have words := magnitudeOfWords_range 64 a
  rw [← List.map_coe_finRange_eq_range, List.map_map] at words
  exact words.trans (Nat.mod_eq_of_lt h)

/-- What the host makes of a register's 65 words is the register's value. -/
theorem valueOfWords_readReg (x : TargetName) (s : State) :
    valueOfWords (readReg (.sign x) s) ((List.finRange 64).map fun k => readReg (.mag x k) s) =
      targetValue (readTarget x s) := by
  have sign : (readReg (.sign x) s).getLsbD 0 = (readTarget x s).sign := by
    rw [readReg]; cases (readTarget x s).sign <;> rfl
  have mag : magnitudeOfWords ((List.finRange 64).map fun k => readReg (.mag x k) s) = (readTarget x s).mag.toNat := by
    simp only [readReg, magWord_eq_ofNat, magnitudeOfWords_finRange (readTarget x s).mag.isLt]
  rw [valueOfWords, sign, mag, targetValue]

theorem map_magOffsets {α : Type} (x : TargetName) (f : Nat → α) :
    (magOffsets (targetBase x)).map f = (List.finRange 64).map fun k => f (regOffset (.mag x k)) := by
  rw [magOffsets, ← List.map_coe_finRange_eq_range, List.map_map, List.map_map]
  rfl

/-- The words of `wtarget`: SIGN, then MAG least significant first. -/
def targetWords (x : TargetName) (v : Int) : List (WindowReg × Word) :=
  (.sign x, if v < 0 then 1#32 else 0#32) :: (List.finRange 64).map fun k => (.mag x k, magnitudeWord v k)

theorem expandLine_wtarget (x : TargetName) (v : Int) :
    expandLine (.wtarget (targetBase x) v) = wordWrites (targetWords x v) := by
  rw [expandLine, ← List.map_coe_finRange_eq_range, wordWrites, targetWords, List.map_cons, List.map_map, List.map_map]
  rfl

/-- A SIGN word of 0 or 1 has no reserved bit set. -/
theorem signWord_and_one (p : Prop) [Decidable p] :
    (if p then 1#32 else 0#32) &&& 1#32 = if p then 1#32 else 0#32 := by
  split <;> decide

theorem targetWords_take (x : TargetName) (v : Int) : ∀ p ∈ targetWords x v, WordTakes p := by
  refine List.forall_mem_cons.2 ⟨⟨nofun, nofun, fun s => ?_⟩, fun p hp => ?_⟩
  · rw [readReg_writeReg_sign, signWord_and_one]
  · obtain ⟨k, -, rfl⟩ := List.mem_map.1 hp
    exact ⟨nofun, nofun, readReg_writeReg_mag x k _⟩

theorem map_fst_targetWords (x : TargetName) (v : Int) :
    (targetWords x v).map Prod.fst = .sign x :: (List.finRange 64).map (.mag x) := by
  rw [targetWords, List.map_cons, List.map_map]; rfl

theorem targetWords_nodup (x : TargetName) (v : Int) : ((targetWords x v).map Prod.fst).Nodup := by
  rw [map_fst_targetWords, List.nodup_cons]
  exact ⟨by simp, (List.nodup_finRange 64).map fun _ _ h => by cases h; rfl⟩

/-- The host reads back from `wtarget`'s words the value it wrote. -/
theorem valueOfWords_targetWords {v : Int} (h : v.natAbs < 2 ^ 2048) :
    valueOfWords (if v < 0 then 1#32 else 0#32) ((List.finRange 64).map fun k : Fin 64 => magnitudeWord v k) = v := by
  simp only [valueOfWords, magnitudeWord, magnitudeOfWords_finRange h]
  rcases lt_or_ge v 0 with neg | nonneg
  · rw [if_pos neg, if_pos (by decide), Int.ofNat_natAbs_of_nonpos neg.le, neg_neg]
  · rw [if_neg nonneg.not_gt, if_neg (by decide), Int.natAbs_of_nonneg nonneg]

/-- Settles O47: the 65 words read back, so the host would read the value it wrote, which is the register's. -/
theorem targetWordsCarryTheValue : Obligations.TargetWordsCarryTheValue := by
  refine ⟨fun s x v idle fits => ?_, fun s x => ?_⟩
  · have takes := targetWords_take x v
    have reads {p} (hp : p ∈ targetWords x v) :=
      readReg_serveAll_wordWrites takes (targetWords_nodup x v) idle hp
    obtain ⟨engine, status, flags, frame⟩ := serveAll_wordWrites_keeps takes idle
    have sign := reads (.head _)
    have mag (k : Fin 64) := reads (.tail _ (List.mem_map_of_mem (List.mem_finRange k)))
    rw [expandLine_wtarget]
    refine ⟨?_, engine, status, flags, fun r notSign notMag => frame r ?_⟩
    · rw [← valueOfWords_readReg, sign]
      simp only [mag, valueOfWords_targetWords fits]
    · rw [map_fst_targetWords]
      simp [notSign, notMag, eq_comm]
  · rw [map_magOffsets, ← valueOfWords_readReg]
    simp only [readOffset, windowReg_regOffset, (windowReg_targetBase x).1]

end Sys2Proof.Proofs

/-!
Proofs of further statements of 40_codec.md and 41_retarget.md: the range of Encode (R125, R127), the two readings of
`height + 1` (R143) and of the quotient (R148), the bounds of R150, a due RETARGET (R142 to R154) and the document's
scenario (V-L1-1).
-/

namespace Sys2Proof.Proofs

open Sys2Proof.Machine Sys2Proof.Laws Sys2Proof.Safety
open Sys2Proof.Config (HeightIncMode NegQuotMode)

/-! ## The range of Encode (R125, R127) -/

/-- Encode is RANGE exactly where its final exponent exceeds 255: 256 bytes, or 255 and the correction. -/
theorem compactEncode_eq_range_iff_bytelen (v : Int) :
    compactEncode v = .range ↔
      255 < bytelen v.natAbs ∨ (bytelen v.natAbs = 255 ∧ 2 ^ 23 ≤ rawMantissa v.natAbs 255) := by
  rcases compactEncode_cases v with ⟨rfl, word⟩ | ⟨-, range, large⟩ | ⟨-, bytes, plain, word⟩ | ⟨-, bytes, -, word⟩
  · exact iff_of_false (by rw [word]; nofun) (by decide)
  · refine iff_of_true range (large.imp_right fun ⟨bytes, corrected⟩ => ⟨bytes, ?_⟩)
    rwa [bytes] at corrected
  · refine iff_of_false (by rw [word]; nofun) ?_
    rintro (long | ⟨bytes255, corrected⟩)
    · omega
    · rw [bytes255] at plain
      omega
  · refine iff_of_false (by rw [word]; nofun) ?_
    rintro (long | ⟨bytes255, -⟩) <;> omega

theorem compactEncode_eq_range_iff (v : Int) : compactEncode v = .range ↔ 2 ^ 2039 ≤ v.natAbs := by
  constructor
  · intro range
    by_contra small
    obtain ⟨w, ovf, word⟩ := exists_word_of_natAbs_lt (not_le.1 small)
    cases range.symm.trans word
  · intro large
    rw [compactEncode_eq_range_iff_bytelen, rawMantissa_255_ge_iff]
    have bytes : 254 < bytelen v.natAbs := by
      rw [← not_le, bytelen_le_iff, not_lt]
      exact le_trans (Nat.pow_le_pow_right (by decide) (by decide)) large
    rcases (show 255 ≤ bytelen v.natAbs from bytes).lt_or_eq with long | same
    · exact .inl long
    · exact .inr ⟨same.symm, large⟩

/-- Settles O22: the boundary in the value, and in the bytes a target register holds. -/
theorem encodeRangeExactly : Obligations.EncodeRangeExactly := by
  refine ⟨compactEncode_eq_range_iff, fun v fits => ?_⟩
  have most : bytelen v.natAbs ≤ 256 := (bytelen_le_iff _ 256).2 fits
  rw [compactEncode_eq_range_iff_bytelen]
  refine or_congr (by omega) (and_congr_right fun bytes => ?_)
  have small := rawMantissa_lt v.natAbs
  rw [bytes] at small
  exact (testBit_23_iff small).symm

/-- Settles O24: Encode is RANGE there, and an error changes nothing but STATUS. -/
theorem encodeOutOfRangeChangesOnlyStatus : Obligations.EncodeOutOfRangeChangesOnlyStatus := by
  intro dst src s large
  have fails : exec (.encode dst src) s = .next (raiseError .range s) := by
    rw [exec_eq_commit, instrOutcome, encodeOutcome_range ((compactEncode_eq_range_iff _).2 large), commit_error]
  obtain ⟨ends, flags, frame, code⟩ := raiseError_leaves .range s
  exact ⟨_, fails, ends, flags, frame, code⟩

/-! ## The two readings of `height + 1` (R143) -/

theorem heightPlusOne_exact (hE : Nat) : heightPlusOne .exact hE = hE + 1 := heightPlusOne_eq .exact hE

theorem heightPlusOne_wrap32 (hE : Nat) : heightPlusOne .wrap32 hE = (hE + 1) % 2 ^ 32 := heightPlusOne_eq .wrap32 hE

/-- Settles O26: the readings are the sum and its remainder, which differ where the sum reaches 2^32. -/
theorem heightReadingsDifferOnce : Obligations.HeightReadingsDifferOnce := by
  refine ⟨fun hm x => ?_, fun hE fits => ⟨heightPlusOne_exact hE, heightPlusOne_wrap32 hE, ?_⟩, ?_⟩
  · rw [retargetDue_eq, decide_eq_true_iff]
  · rw [heightPlusOne_exact, heightPlusOne_wrap32]
    omega
  · rw [heightPlusOne_exact, heightPlusOne_wrap32]
    decide

/-! ## The two readings of the quotient (R148) -/

/-- The product of step 4 (R147). -/
def retargetProduct (x : RetargetInputs) : Int := compactDecode x.bE * clampedSpan x

theorem quotient_floor_eq (x : RetargetInputs) : quotient .floor x = retargetProduct x / (x.T : Int) := by
  rw [quotient, retargetQuotient_eq, if_pos rfl, Int.fdiv_eq_ediv_of_nonneg _ (Int.natCast_nonneg _)]
  rfl

theorem quotient_trunc_eq_tdiv (x : RetargetInputs) : quotient .trunc x = (retargetProduct x).tdiv (x.T : Int) := by
  rw [quotient, retargetQuotient_eq, if_neg (by decide)]
  rfl

/-- Rounding toward zero is rounding down, and one more for a negative product that T does not divide. -/
theorem quotient_trunc_eq {x : RetargetInputs} (hT : 0 < x.T) :
    quotient .trunc x =
      quotient .floor x + if 0 ≤ retargetProduct x ∨ (x.T : Int) ∣ retargetProduct x then 0 else 1 := by
  rw [quotient_trunc_eq_tdiv, quotient_floor_eq, Int.tdiv_eq_ediv, Int.sign_eq_one_of_pos (by omega)]

/-- The clamped span is not negative, so the product takes its sign from the compact word. -/
theorem compactDecode_neg_of_product_neg {x : RetargetInputs} (h : retargetProduct x < 0) : compactDecode x.bE < 0 :=
  neg_of_mul_neg_left h (clampedSpan_nonneg x)

/-- Settles O29: both readings as roundings of one exact product. -/
theorem quotientReadings : Obligations.QuotientReadings := by
  intro x hT p
  have product : retargetProduct x = p := rfl
  have trunc := quotient_trunc_eq hT
  rw [product] at trunc
  refine ⟨fun nonneg => ⟨quotient_of_nonneg .trunc nonneg, quotient_floor_eq x⟩,
    fun neg => ⟨?_, quotient_floor_eq x⟩, fun neg notDvd => ?_, fun dvd => ?_, fun neg => ?_⟩
  · rw [quotient_trunc_eq_tdiv, product, ← Int.tdiv_eq_ediv_of_nonneg (by omega), Int.neg_tdiv, neg_neg]
  · rw [trunc, if_neg (not_or.2 ⟨not_le.2 neg, notDvd⟩)]
  · rw [trunc, if_pos (.inr dvd), add_zero]
  · have decodedNeg := compactDecode_neg_of_product_neg neg
    exact ⟨signBit_of_compactDecode_neg x.bE decodedNeg, decodedNeg.ne⟩

/-! ## The bounds of R150 -/

theorem clampedSpan_lt (s : State) : clampedSpan (retargetInputs s) < 2 ^ 34 := by
  obtain ⟨-, upper⟩ := clampedSpan_bounds (retargetInputs s)
  have T : (retargetInputs s).T < 2 ^ 32 := s.timespan.isLt
  rw [spanMax_eq] at upper
  omega

theorem natAbs_product_lt (s : State) :
    (compactDecode (retargetInputs s).bE * clampedSpan (retargetInputs s)).natAbs < 2 ^ 2073 := by
  have span : (clampedSpan (retargetInputs s)).natAbs < 2 ^ 34 := by
    have := clampedSpan_nonneg (retargetInputs s)
    have := clampedSpan_lt s
    omega
  have bits : 2 ^ 2073 = 2 ^ 2039 * 2 ^ 34 := two_pow_split 2039 34
  rw [Int.natAbs_mul, bits]
  exact Nat.mul_lt_mul'' (natAbs_compactDecode_lt _) span

/-- Settles O30: the bounds step by step, and that `put` keeps every result. -/
theorem retargetNeverOverflows : Obligations.RetargetNeverOverflows := by
  intro hm nm s x
  refine ⟨fun hT => ?_, fun r => targetValue_putTarget_of_nextTarget⟩
  exact ⟨clampedSpan_nonneg x, clampedSpan_lt s, natAbs_product_lt s, natAbs_quotient_le .trunc x hT,
    natAbs_quotient_le .floor x hT, natAbs_quotient_lt nm x hT⟩

/-! ## A due RETARGET (R142 to R154) -/

/-- The quotient as the rule writes it: the decoded bits times the clamped difference of the timestamps, over T. -/
theorem quotient_eq (nm : NegQuotMode) (x : RetargetInputs) :
    quotient nm x =
      let p := compactDecode x.bE * max ((x.T : Int) / 4) (min (x.tE - x.tS) (4 * (x.T : Int)))
      if nm = .floor then p.fdiv x.T else p.tdiv x.T := by
  rw [quotient, retargetQuotient_eq, clampedSpan_eq, spanMin_eq, spanMax_eq, rawSpan]

theorem nextTarget_of_due {hm : HeightIncMode} (nm : NegQuotMode) {x : RetargetInputs} (hL : x.L ≠ 0)
    (due : heightPlusOne hm x.hE % x.L = 0) (hT : x.T ≠ 0) (start : x.strict = true → startMismatch hm x = false) :
    nextTarget hm nm x = .target (min (quotient nm x) x.PL) := by
  have passes : ¬ (x.strict = true ∧ (x.hS : Int) ≠ (heightPlusOne hm x.hE : Int) - (x.L : Int)) :=
    fun ⟨strict, mismatch⟩ => of_decide_eq_false (start strict) mismatch
  rw [nextTarget_eq_ite, if_neg hL, if_neg (not_not.2 due), if_neg hT, if_neg passes]

theorem retargetFlags_of_due {hm : HeightIncMode} (nm : NegQuotMode) {x : RetargetInputs}
    (due : retargetDue hm x = true) (r : Int) :
    retargetFlags hm nm x r =
      { Flags.clear with
        zero := decide (r = 0), neg := decide (r < 0), due := true, spanLo := decide (rawSpan x < spanMin x),
        spanHi := decide (rawSpan x > spanMax x), ceil := decide (quotient nm x > x.PL),
        epochMismatch := startMismatch hm x } := by
  simp only [retargetFlags, due, Bool.true_and]

/-- Settles O32: NextTarget gives the quotient under the ceiling, and RETARGET commits it. -/
theorem retargetComputesNextTarget : Obligations.RetargetComputesNextTarget := by
  intro dst s hp1 L T PL raw span p q r mism hL due hT start
  have target := nextTarget_of_due (x := retargetInputs s) Config.negQuotMode hL due (Int.natCast_ne_zero.1 hT) start
  have isDue : retargetDue Config.heightIncMode (retargetInputs s) = true :=
    (retargetDue_eq _ _).trans (decide_eq_true due)
  have isQuotient : quotient Config.negQuotMode (retargetInputs s) = q := quotient_eq _ _
  have flags := retargetFlags_of_due Config.negQuotMode isDue r
  rw [isQuotient] at target flags
  rw [spanMin_eq, spanMax_eq] at flags
  refine ⟨_, exec_retarget_of_target target, targetValue_readTg_of_target target, fun zero => ?_, flags,
    committed_success _ _ s, sameWindow_tg dst _ _ s⟩
  rw [readTg_commitSuccess_tg]
  exact congrArg (fun v => (putTarget v).sign) zero

/-! ## The document's scenario (V-L1-1) -/

/-- Reset with the two headers of the scenario. -/
def scenarioState : State :=
  { State.reset with
    hdrS := { height := 0x00079140#32, bits := 0x1800D0F6#32, timeLo := 0x5A18E92C#32, timeHi := 0#32 }
    hdrE := { height := 0x0007991F#32, bits := 0x1800D0F6#32, timeLo := 0x5A2889D2#32, timeHi := 0#32 } }

/-- The target the document expects. -/
def scenarioTarget : Int := 0xB0ED44672894AB6CD8EFB11D33F5617839A5BC7DEA00C2

theorem nextTarget_scenario (hm : HeightIncMode) (nm : NegQuotMode) :
    nextTarget hm nm (retargetInputs scenarioState) = .target scenarioTarget := by
  cases hm <;> cases nm <;> decide +kernel

theorem retargetFlags_scenario (hm : HeightIncMode) (nm : NegQuotMode) :
    flagsWord (retargetFlags hm nm (retargetInputs scenarioState) scenarioTarget) = 0x00000020#32 := by
  cases hm <;> cases nm <;> decide +kernel

theorem compactEncode_scenario : compactEncode scenarioTarget = .word 0x1800B0ED#32 true := by
  decide +kernel

theorem encodeFlags_scenario : flagsWord (encodeFlags scenarioTarget 0x1800B0ED#32 true) = 0x00000018#32 := by
  decide +kernel

/-- Settles O37: NextTarget and Encode evaluated on the scenario, whatever the open parameters are. -/
theorem documentScenario : Obligations.DocumentScenario := by
  unfold Obligations.DocumentScenario
  intro s
  have target : nextTarget Config.heightIncMode Config.negQuotMode (retargetInputs s) = .target scenarioTarget :=
    nextTarget_scenario _ _
  have value := targetValue_readTg_of_target (dst := 1)
    (f := retargetFlags Config.heightIncMode Config.negQuotMode (retargetInputs s) scenarioTarget) target
  refine ⟨_, _, exec_retarget_of_target target, value, retargetFlags_scenario _ _,
    exec_encode_word (by rw [value, compactEncode_scenario]), readCb_commitSuccess_cb _ _ _ _, ?_⟩
  rw [value]
  exact encodeFlags_scenario

end Sys2Proof.Proofs

/-!
Proofs of further statements of 42_control.md, 60_exceptions.md, 10_state.md section 8 and 70_reset_and_hazards.md
section 1: NOP (R170), failed commands (R185), HDR_S.BITS (R38), and one step of the machine (R68, R176, R210).
-/

namespace Sys2Proof.Proofs

open Sys2Proof.Machine Sys2Proof.Laws Sys2Proof.Safety

/-! ## Commands (R38, R170, R185) -/

theorem flagsWord_clear : flagsWord Flags.clear = 0x00000000#32 := by decide

/-- Settles O13: NOP is the commit of a success without destination. -/
theorem nopOnlyCompletes : Obligations.NopOnlyCompletes := fun s =>
  ⟨_, exec_eq_commit .nop s, flagsWord_clear, committed_success _ _ s, sameWindow_none _ s⟩

/-- Settles O39: a success leaves no error, and an error is `raiseError`, which touches the engine and STATUS alone. -/
theorem failedCommandsChangeOnlyStatus : Obligations.FailedCommandsChangeOnlyStatus := by
  intro i s t h failed
  rw [exec_next h] at failed ⊢
  cases outcome : instrOutcome i s with
  | success d f => rw [outcome, commit_err] at failed; exact absurd rfl failed
  | error code => rfl

/-- The state with HDR_S.BITS replaced. -/
def withStartBits (b : Word) (s : State) : State :=
  { s with hdrS := { s.hdrS with bits := b } }

theorem instrOutcome_withStartBits (i : Instr) (b : Word) (s : State) :
    instrOutcome i (withStartBits b s) = instrOutcome i s :=
  instrOutcome_congr i rfl rfl rfl

theorem commit_withStartBits (o : CommandOutcome) (b : Word) (s : State) :
    commit o (withStartBits b s) = withStartBits b (commit o s) := by
  cases o with
  | success d f => cases d <;> rfl
  | error code => rfl

/-- Settles O36: no outcome is computed from the word, and no commit writes it. -/
theorem startBitsAreNeverRead : Obligations.StartBitsAreNeverRead := by
  intro i s b
  refine ⟨_, _, exec_eq_commit i s, exec_eq_commit i (withStartBits b s), ?_⟩
  rw [instrOutcome_withStartBits, commit_withStartBits]
  rfl

/-! ## One step (R68, R176, R210) -/

/-- A cycle under `rst` (R210). -/
theorem step_of_reset {s : State} (rst : (nextCycle s).rst = true) :
    step s = .next (resetCycle (nextCycle s).access (takeCycle s)) := by
  rcases step_cases s with ⟨-, e⟩ | ⟨noRst, -, -⟩ | ⟨noRst, -⟩
  · exact e
  · cases rst.symm.trans noRst
  · cases rst.symm.trans noRst

/-- A cycle in which the engine does nothing serves its transaction. -/
theorem step_of_wait {s : State} (noRst : (nextCycle s).rst = false)
    (waiting : s.engine = .idle ∨ (nextCycle s).commit = false) :
    step s = .next (serveCycle (nextCycle s).access (takeCycle s)) := by
  rcases step_cases s with ⟨rst, -⟩ | ⟨-, -, e⟩ | ⟨-, w, inFlight, commits, -⟩
  · cases rst.symm.trans noRst
  · exact e
  · rcases waiting with idle | noCommit
    · cases inFlight.symm.trans idle
    · cases commits.symm.trans noCommit

/-- A cycle in which the word in flight commits, before the cycle's transaction (R68, R187). -/
theorem step_of_commit {s : State} {w : Word} (inFlight : s.engine = .busy w) (noRst : (nextCycle s).rst = false)
    (commits : (nextCycle s).commit = true) :
    step s = .next (serveCycle (nextCycle s).access (commit (wordOutcome w (takeCycle s)) (takeCycle s))) := by
  rcases step_cases s with ⟨rst, -⟩ | ⟨-, waiting, -⟩ | ⟨-, w', inFlight', -, e⟩
  · cases rst.symm.trans noRst
  · rcases waiting with idle | noCommit
    · cases inFlight.symm.trans idle
    · cases commits.symm.trans noCommit
  · cases inFlight.symm.trans inFlight'
    exact e

/-- The commit of a legal word in flight is the command's `exec`. -/
theorem exec_takeCycle {w : Word} {i : Instr} (decoded : decodeWord w = .ok i) (s : State) :
    exec i (takeCycle s) = .next (commit (wordOutcome w (takeCycle s)) (takeCycle s)) := by
  rw [exec_eq_commit, wordOutcome_ok decoded]

theorem nextCycle_of_nil {s : State} (h : s.inputs = []) : nextCycle s = quietCycle := by
  rw [nextCycle, h]; rfl

theorem nextCycle_of_cons {s : State} {c : Cycle} {cs : List Cycle} (h : s.inputs = c :: cs) : nextCycle s = c := by
  rw [nextCycle, h]; rfl

/-- Taking a cycle's inputs changes no register. -/
theorem readReg_takeCycle (r : WindowReg) (s : State) : readReg r (takeCycle s) = readReg r s :=
  readReg_congr r rfl rfl rfl rfl rfl rfl rfl rfl rfl (fun _ => statusWord_congr rfl rfl) (fun _ => rfl)

/-- Settles O8: every case of a step answers a next state. -/
theorem everyStepAnswersNext : Obligations.EveryStepAnswersNext := by
  intro s
  rcases step_cases s with ⟨-, e⟩ | ⟨-, -, e⟩ | ⟨-, _, -, -, e⟩ <;> exact ⟨_, e⟩

/-- Settles O7: the two kinds of cycle without reset, with `exec` for the commit of a legal word. -/
theorem stepRunsTheDecodedCommand : Obligations.StepRunsTheDecodedCommand := by
  refine ⟨fun s w i inFlight decoded noRst commits => ?_, fun s w i inFlight decoded nothing => ?_,
    fun s w e inFlight illegal noRst commits => ?_, fun s => step_of_wait,
    fun s off noRst waiting access aligned inside => ?_⟩
  · exact ⟨_, exec_takeCycle decoded s, step_of_commit inFlight noRst commits⟩
  · have quiet := nextCycle_of_nil nothing
    rw [step_of_commit inFlight (by rw [quiet]; rfl) (by rw [quiet]; rfl), quiet, exec_takeCycle decoded]
    rfl
  · rw [step_of_commit inFlight noRst commits, wordOutcome, illegal]
    rfl
  · rw [step_of_wait noRst waiting, access, serveCycle, serve_read _ aligned inside, readOffset, readReg_takeCycle]
    rfl

/-- Settles O52: the transaction is served on the state after the commit, whose DONE is 1. -/
theorem commitComesBeforeSameCycleAccess : Obligations.CommitComesBeforeSameCycleAccess := by
  rintro s w i c inFlight decoded rfl noRst commits
  have committed := step_of_commit inFlight noRst commits
  obtain ⟨idle, done, -⟩ := commit_ends (wordOutcome w (takeCycle s)) (takeCycle s)
  refine ⟨_, exec_takeCycle decoded s, fun v access => ?_, fun off access aligned inside => ?_⟩
  · rw [access, serveCycle, serve_write v _ (by decide) (by decide), hostWrite_status] at committed
    refine ⟨_, committed, ?_, rfl, rfl, rfl, rfl, idle⟩
    rw [clearStatus_status, done, Bool.true_and]
  · rw [access, serveCycle, serve_read _ aligned inside] at committed
    exact ⟨_, committed, rfl⟩

/-- Settles O53: the engine was Idle when the cycle began, so the cycle holds the issue alone. -/
theorem issueStaysBusyThatCycle : Obligations.IssueStaysBusyThatCycle := by
  intro s w idle noRst access
  have issued := step_of_wait noRst (.inl idle)
  rw [access, serveCycle, serve_write w _ (by decide) (by decide),
    hostWrite_cmd_of_idle w (s := takeCycle s) idle] at issued
  exact ⟨_, issued, rfl, rfl, rfl⟩

/-- Under `rst` every register word is at its reset value (R210). -/
theorem readReg_resetCycle (r : WindowReg) (a : Option Access) (s : State) :
    readReg r (resetCycle a s) = readReg r State.reset :=
  readReg_congr r rfl rfl rfl rfl rfl rfl rfl rfl rfl (fun _ => statusWord_congr rfl rfl) (fun _ => rfl)

/-- A served read under `rst` gets 0 (R211). -/
theorem resetResponse_read {off : Nat} (aligned : off % 4 = 0) (inside : off < 0x2000) :
    resetResponse (.read off .bits32) = .okRead 0#32 := by
  rw [resetResponse, if_pos (served_read aligned inside)]

/-- Settles O10: the cycle is `resetCycle`, which looks at its transaction for the port's answer alone. -/
theorem resetCycleAbandonsEverything : Obligations.ResetCycleAbandonsEverything := by
  intro s rst
  refine ⟨_, step_of_reset rst, rfl, fun r => readReg_resetCycle r _ _, rfl, fun off access aligned inside => ?_,
    fun access => ?_⟩
  · rw [access, resetCycle_port, Option.map_some, resetResponse_read aligned inside]
  · rw [access]
    rfl

end Sys2Proof.Proofs

/-!
Proofs about runs of the machine: an outcome is fixed at issue (R172, R174), commands in sequence compose (R178), and
every run ends (R176, R221).
-/

namespace Sys2Proof.Proofs

open Sys2Proof.Machine Sys2Proof.Laws Sys2Proof.Safety

/-! ## Runs -/

theorem run_zero (s : State) : run 0 s = .next s := rfl

theorem run_succ_of_step {s t : State} (h : step s = .next t) (n : Nat) : run (n + 1) s = run n t := by
  rw [run, h]

theorem run_one (s : State) : run 1 s = step s := by
  obtain ⟨t, h⟩ := everyStepAnswersNext s
  rw [run_succ_of_step h, run_zero, h]

/-- A run goes on from the state it has reached. -/
theorem run_add_of_run {m : Nat} {s t : State} (h : run m s = .next t) (n : Nat) : run (m + n) s = run n t := by
  induction m generalizing s with
  | zero => cases h; rw [Nat.zero_add]
  | succ m ih =>
    obtain ⟨u, first⟩ := everyStepAnswersNext s
    rw [run_succ_of_step first] at h
    rw [Nat.add_right_comm, run_succ_of_step first, ih h]

/-! ## Waiting with a command in flight (R172, R174) -/

/-- While the engine is Busy a cycle's transaction reaches STATUS and the port alone. -/
theorem serveCycle_of_busy (a : Option Access) {s : State} {w : Word} (inFlight : s.engine = .busy w) :
    ∃ status port, serveCycle a s = { s with status := status, port := port } := by
  rcases serveCycle_cases a s with e | ⟨x, -, e⟩ <;> rw [e]
  · exact ⟨s.status, s.port, rfl⟩
  · have effect : ∃ status, accessEffect x s = { s with status := status } := by
      rcases accessEffect_cases x s with e | ⟨r, v, e⟩ <;> rw [e]
      · exact ⟨s.status, rfl⟩
      · rcases hostWriteReg_cases r v s with ⟨-, e⟩ | ⟨-, -, e⟩ | ⟨-, free, -⟩ | ⟨-, -, free, -⟩
        · exact ⟨_, e⟩
        · exact ⟨_, e⟩
        · cases free.symm.trans (busy_of_busy inFlight)
        · cases free.symm.trans (busy_of_busy inFlight)
    obtain ⟨status, effect⟩ := effect
    exact ⟨status, some (accessResponse x s), by rw [serve, effect]⟩

/-- Cycles in which the engine waits change STATUS and the port alone, and take their inputs. -/
theorem run_waits {w : Word} {cs more : List Cycle} (waiting : ∀ c ∈ cs, waits c) {s : State}
    (inFlight : s.engine = .busy w) (inputs : s.inputs = cs ++ more) :
    ∃ status port, run cs.length s = .next { s with status := status, port := port, inputs := more } := by
  induction cs generalizing s with
  | nil => exact ⟨s.status, s.port, by rw [← show s.inputs = more from inputs]; rfl⟩
  | cons c cs ih =>
    obtain ⟨⟨noRst, noCommit⟩, waitingRest⟩ := List.forall_mem_cons.1 waiting
    have next : nextCycle s = c := nextCycle_of_cons inputs
    have first := step_of_wait (s := s) (by rw [next, noRst]) (.inr (by rw [next, noCommit]))
    obtain ⟨status, port, served⟩ := serveCycle_of_busy (nextCycle s).access (s := takeCycle s) inFlight
    rw [served] at first
    obtain ⟨status', port', rest⟩ := ih waitingRest (s := { takeCycle s with status := status, port := port }) inFlight
      (by rw [takeCycle_inputs, inputs]; rfl)
    exact ⟨status', port', by rw [List.length_cons, run_succ_of_step first, rest]; rfl⟩

/-- A commit does not look at STATUS or the port, and overwrites DONE and ERR (R173). -/
theorem apartFromPort_commit (w : Word) (status : Status) (port : Option BusResponse) (s : State) :
    let t : State := { s with status := status, port := port }
    apartFromPort (commit (wordOutcome w t) t) = apartFromPort (commit (wordOutcome w s) s) := by
  intro t
  have same : wordOutcome w t = wordOutcome w s := by
    cases decoded : decodeWord w with
    | ok i => rw [wordOutcome_ok decoded, wordOutcome_ok decoded]; exact instrOutcome_congr i rfl rfl rfl
    | error e => rw [wordOutcome, wordOutcome, decoded]
  rw [same]
  cases wordOutcome w s with
  | success d f => cases d <;> rfl
  | error code => rfl

/-- A quiet cycle with a word in flight is its commit. -/
theorem step_of_quietCycle {s : State} {w : Word} {rest : List Cycle} (inFlight : s.engine = .busy w)
    (inputs : s.inputs = quietCycle :: rest) :
    step s = .next (commit (wordOutcome w (takeCycle s)) (takeCycle s)) := by
  have next := nextCycle_of_cons inputs
  rw [step_of_commit inFlight (by rw [next]; rfl) (by rw [next]; rfl), next]
  rfl

/-- Settles O58: the waiting cycles change STATUS and the port, and the commit looks at neither. -/
theorem outcomeIsFixedAtIssue : Obligations.OutcomeIsFixedAtIssue := by
  intro s w cs rest inFlight inputs waiting
  obtain ⟨status, port, waited⟩ := run_waits waiting inFlight inputs
  have last := step_of_quietCycle (rest := rest)
    (s := { s with status := status, port := port, inputs := quietCycle :: rest }) inFlight rfl
  have ran := (run_add_of_run waited 1).trans ((run_one _).trans last)
  refine ⟨_, _, ran, step_of_quietCycle (rest := rest) inFlight rfl, ?_⟩
  exact apartFromPort_commit w status none (takeCycle { s with inputs := quietCycle :: rest })

/-! ## Commands in sequence (R178) -/

/-- The operand registers and FLAGS agree in two states. -/
def SameResults (s t : State) : Prop := sameOperands s t ∧ s.flags = t.flags

theorem sameResults_refl (s : State) : SameResults s s :=
  ⟨⟨rfl, rfl, rfl, rfl, rfl, rfl, rfl, rfl⟩, rfl⟩

theorem sameResults_trans {s t u : State} (h : SameResults s t) (h' : SameResults t u) : SameResults s u := by
  obtain ⟨⟨cb, tg, hdrS, hdrE, timespan, epochLen, powLimit, ctrl⟩, flags⟩ := h
  obtain ⟨⟨cb', tg', hdrS', hdrE', timespan', epochLen', powLimit', ctrl'⟩, flags'⟩ := h'
  exact ⟨⟨cb.trans cb', tg.trans tg', hdrS.trans hdrS', hdrE.trans hdrE', timespan.trans timespan',
    epochLen.trans epochLen', powLimit.trans powLimit', ctrl.trans ctrl'⟩, flags.trans flags'⟩

/-- A command's commit is a function of the operand registers and FLAGS (R172). -/
theorem sameResults_commit {s t : State} (h : SameResults s t) (i : Instr) :
    SameResults (commit (instrOutcome i s) s) (commit (instrOutcome i t) t) := by
  obtain ⟨⟨cb, tg, hdrS, hdrE, timespan, epochLen, powLimit, ctrl⟩, flags⟩ := h
  have same := instrOutcome_congr i cb tg (retargetInputs_congr hdrS hdrE timespan epochLen powLimit ctrl)
  rw [same]
  cases instrOutcome i t with
  | success d f => cases d <;> simp [SameResults, sameOperands, *]
  | error code => exact ⟨⟨cb, tg, hdrS, hdrE, timespan, epochLen, powLimit, ctrl⟩, flags⟩

theorem applyCommands_cons (i : Instr) (is : List Instr) (s : State) :
    applyCommands (i :: is) s = applyCommands is (commit (instrOutcome i s) s) := by
  rw [applyCommands, List.foldl_cons, exec_eq_commit]
  rfl

/-- The cycles of one issue and its commit: the command's function on the registers (R171, R173). -/
theorem run_issueThenCommit (i : Instr) {s : State} {rest : List Cycle} (idle : s.engine = .idle)
    (inputs : s.inputs = issueThenCommit i ++ rest) :
    ∃ t, run 2 s = .next t ∧ t.engine = .idle ∧ t.inputs = rest ∧
      SameResults t (commit (instrOutcome i s) s) := by
  have next := nextCycle_of_cons inputs
  have issued := step_of_wait (s := s) (by rw [next]; rfl) (.inl idle)
  rw [next, accessCycle, serveCycle, writeWord, serve_write _ _ (by decide) (by decide),
    hostWrite_cmd_of_idle _ (s := takeCycle s) idle] at issued
  let u : State := { issue (encodeInstr i) (takeCycle s) with port := some .okWrite }
  have inputsIssued : u.inputs = quietCycle :: rest := congrArg List.tail inputs
  have committed := step_of_quietCycle (s := u) (w := encodeInstr i) rfl inputsIssued
  rw [wordOutcome_ok (decodeWord_encodeInstr i)] at committed
  obtain ⟨idle', -, -, inputs', -⟩ := commit_ends (instrOutcome i (takeCycle u)) (takeCycle u)
  have same : SameResults (takeCycle u) s := sameResults_refl s
  refine ⟨_, ?_, idle', ?_, sameResults_commit same i⟩
  · rw [run_succ_of_step issued, run_one, committed]
  · rw [inputs', takeCycle_inputs, inputsIssued, List.tail_cons]

/-- Commands issued one after another, from any state with the same results. -/
theorem run_commands (is : List Instr) {s s' : State} {rest : List Cycle} (idle : s.engine = .idle)
    (inputs : s.inputs = is.flatMap issueThenCommit ++ rest) (same : SameResults s s') :
    ∃ t, run (2 * is.length) s = .next t ∧ t.engine = .idle ∧ t.inputs = rest ∧
      SameResults t (applyCommands is s') := by
  induction is generalizing s s' with
  | nil => exact ⟨s, rfl, idle, inputs, same⟩
  | cons i is ih =>
    rw [List.flatMap_cons, List.append_assoc] at inputs
    obtain ⟨u, first, idle', inputs', result⟩ := run_issueThenCommit i idle inputs
    obtain ⟨t, later, ends⟩ := ih idle' inputs' (sameResults_trans result (sameResults_commit same i))
    refine ⟨t, ?_, applyCommands_cons i is s' ▸ ends⟩
    rw [List.length_cons, Nat.mul_succ, Nat.add_comm, run_add_of_run first, later]

/-- Settles O59: each issue and commit applies the command's function, by induction over the commands. -/
theorem sequentialCommandsCompose : Obligations.SequentialCommandsCompose := by
  intro is s rest idle inputs
  obtain ⟨t, ran, idle', inputs', operands, flags⟩ := run_commands is idle inputs (sameResults_refl s)
  exact ⟨t, ran, idle', inputs', operands, flags⟩

/-! ## Every run ends (R176, R221) -/

theorem inputs_of_step {s t : State} (h : step s = .next t) : t.inputs = s.inputs.tail := by
  rcases step_cases s with ⟨-, e⟩ | ⟨-, -, e⟩ | ⟨-, w, -, -, e⟩ <;> cases e.symm.trans h
  · rfl
  · rw [serveCycle_inputs, takeCycle_inputs]
  · obtain ⟨-, -, -, inputs, -⟩ := commit_ends (wordOutcome w (takeCycle s)) (takeCycle s)
    rw [serveCycle_inputs, inputs, takeCycle_inputs]

/-- With nothing presented any more one step ends the run: a command in flight commits (R176). -/
theorem step_of_inputs_nil {s : State} (nothing : s.inputs = []) :
    ∃ t, step s = .next t ∧ t.inputs = [] ∧ runOver t := by
  have quiet := nextCycle_of_nil nothing
  have endsRun {t : State} (h : step s = .next t) (idle : t.engine = .idle) :
      ∃ t, step s = .next t ∧ t.inputs = [] ∧ runOver t := by
    have inputs : t.inputs = [] := by rw [inputs_of_step h, nothing]; rfl
    exact ⟨t, h, inputs, by rw [lastTransactionMade, inputs]; rfl, idle⟩
  cases engine : s.engine with
  | idle =>
    have waited := step_of_wait (s := s) (by rw [quiet]; rfl) (.inl engine)
    rw [quiet] at waited
    exact endsRun waited engine
  | busy w =>
    have committed := step_of_commit engine (by rw [quiet]; rfl) (by rw [quiet]; rfl)
    rw [quiet] at committed
    obtain ⟨idle, -⟩ := commit_ends (wordOutcome w (takeCycle s)) (takeCycle s)
    exact endsRun committed idle

theorem run_inputs (s : State) : ∃ t, run s.inputs.length s = .next t ∧ t.inputs = [] := by
  generalize presented : s.inputs = cs
  induction cs generalizing s with
  | nil => exact ⟨s, rfl, presented⟩
  | cons c cs ih =>
    obtain ⟨t, first⟩ := everyStepAnswersNext s
    obtain ⟨u, later, nothing⟩ := ih t (by rw [inputs_of_step first, presented, List.tail_cons])
    exact ⟨u, by rw [List.length_cons, run_succ_of_step first, later], nothing⟩

/-- One step more than the cycles presented ends the run. -/
theorem run_inputs_succ (s : State) : ∃ t, run (s.inputs.length + 1) s = .next t ∧ t.inputs = [] ∧ runOver t := by
  obtain ⟨u, ran, nothing⟩ := run_inputs s
  obtain ⟨t, last, ends⟩ := step_of_inputs_nil nothing
  exact ⟨t, by rw [run_add_of_run ran, run_one, last], ends⟩

/-- A step after the end of a run: it stays over, and without reset it changes no register. -/
theorem step_after_runOver {s : State} (ended : runOver s) :
    ∃ t, step s = .next t ∧ runOver t ∧ ((nextCycle s).rst = false → ∀ r, readReg r t = readReg r s) := by
  obtain ⟨-, ⟨made, idle⟩, ⟨rst, e⟩ | ⟨-, e⟩⟩ := step_of_runOver ended
  · exact ⟨_, e, ⟨made, rfl⟩, fun noRst => by cases rst.symm.trans noRst⟩
  · exact ⟨_, e, ⟨made, idle⟩, fun _ r => readReg_takeCycle r s⟩

/-- Where no cycle presented asserts `rst`, the next one does not. -/
theorem nextCycle_noReset {s : State} (h : ∀ c ∈ s.inputs, noReset c) : (nextCycle s).rst = false := by
  cases presented : s.inputs with
  | nil => rw [nextCycle_of_nil presented]; rfl
  | cons c cs =>
    rw [nextCycle_of_cons presented]
    exact h c (by rw [presented]; exact .head _)

/-- A run that is over stays over, and without reset it changes no register. -/
theorem run_after_runOver {s : State} (ended : runOver s) (n : Nat) :
    ∃ t, run n s = .next t ∧ runOver t ∧ ((∀ c ∈ s.inputs, noReset c) → ∀ r, readReg r t = readReg r s) := by
  induction n generalizing s with
  | zero => exact ⟨s, rfl, ended, fun _ _ => rfl⟩
  | succ n ih =>
    obtain ⟨t, first, ended', same⟩ := step_after_runOver ended
    obtain ⟨u, later, ended'', same'⟩ := ih ended'
    refine ⟨u, by rw [run_succ_of_step first, later], ended'', fun noRst r => ?_⟩
    have noRstLater : ∀ c ∈ t.inputs, noReset c := fun c hc =>
      noRst c (List.mem_of_mem_tail (inputs_of_step first ▸ hc))
    exact (same' noRstLater r).trans (same (nextCycle_noReset noRst) r)

/-- `runUntilOver` stops at the first state in which the run is over, if one comes within its steps. -/
theorem runUntilOver_first {N : Nat} {s : State} (ends : ∃ t, run N s = .next t ∧ runOver t) :
    ∃ n t, n ≤ N ∧ runUntilOver N s = .next t ∧ run n s = .next t ∧ runOver t ∧
      ∀ m < n, ∃ u, run m s = .next u ∧ ¬ runOver u := by
  induction N generalizing s with
  | zero =>
    obtain ⟨t, ran, ended⟩ := ends
    exact ⟨0, t, le_rfl, ran, ran, ended, nofun⟩
  | succ N ih =>
    by_cases now : runOver s
    · exact ⟨0, s, Nat.zero_le _, by rw [runUntilOver, if_pos now], rfl, now, nofun⟩
    · obtain ⟨s', first⟩ := everyStepAnswersNext s
      rw [run_succ_of_step first] at ends
      obtain ⟨n, t, within, reached, ran, ended, before⟩ := ih ends
      refine ⟨n + 1, t, Nat.succ_le_succ within, ?_, ?_, ended, fun m hm => ?_⟩
      · rw [runUntilOver, if_neg now, first]
        exact reached
      · rw [run_succ_of_step first, ran]
      · cases m with
        | zero => exact ⟨s, rfl, now⟩
        | succ m =>
          rw [run_succ_of_step first]
          exact before m (Nat.lt_of_succ_lt_succ hm)

/-- Settles O60: the run is over within the bound, `endState` stops at the first such state, and it stays over. -/
theorem everyRunEnds : Obligations.EveryRunEnds := by
  refine ⟨fun s => runUntilOver_first ?_, run_inputs_succ, fun s ended n => ?_, fun s ended noRst n => ?_⟩
  · obtain ⟨t, ran, -, ended⟩ := run_inputs_succ s
    exact ⟨t, ran, ended⟩
  · obtain ⟨t, ran, ended', -⟩ := run_after_runOver ended n
    exact ⟨t, ran, ended'⟩
  · obtain ⟨t, ran, ended', same⟩ := run_after_runOver ended n
    exact ⟨t, ran, ended', same noRst⟩

end Sys2Proof.Proofs

/-!
Proofs of the invariant of 42_control.md section 2 and 41_retarget.md section 4: it holds at reset, and the commit and
the transaction of a cycle keep it.
-/

namespace Sys2Proof.Proofs

open Sys2Proof.Machine Sys2Proof.Laws Sys2Proof.Safety
open Sys2Proof.Config (HeightIncMode NegQuotMode)

/-! ## The flags a command can leave (R118, R128, R154) -/

theorem flagsConsistent_iff (f : Flags) :
    flagsConsistent f = true ↔
      ¬ (f.zero = true ∧ f.neg = true) ∧ ¬ (f.spanLo = true ∧ f.spanHi = true) ∧
      (f.due = false → f.spanLo = false ∧ f.spanHi = false ∧ f.ceil = false ∧ f.epochMismatch = false) := by
  cases f with
  | mk zero neg _ _ _ due lo hi ceil mism =>
    cases due <;> simp [flagsConsistent, and_assoc, imp_iff_not_or]

theorem flagsConsistent_clear : flagsConsistent Flags.clear = true := rfl

/-- Flags that report no retarget need only keep ZERO and NEG apart. -/
theorem flagsConsistent_of_codec {zero neg signIn ovf lossy : Bool} (h : ¬ (zero = true ∧ neg = true)) :
    flagsConsistent { Flags.clear with zero := zero, neg := neg, signIn := signIn, ovf := ovf, lossy := lossy } =
      true :=
  (flagsConsistent_iff _).2 ⟨h, by simp [Flags.clear], fun _ => ⟨rfl, rfl, rfl, rfl⟩⟩

/-- No number is zero and negative. -/
theorem not_zero_and_neg (v : Int) : ¬ (decide (v = 0) = true ∧ decide (v < 0) = true) := by
  simp only [decide_eq_true_eq]; omega

theorem flagsConsistent_decodeFlags (c : Word) : flagsConsistent (decodeFlags c) = true :=
  flagsConsistent_of_codec (not_zero_and_neg _)

/-- The zero word has no sign bit. -/
theorem flagsConsistent_encodeFlags (v : Int) (w : Word) (ovf : Bool) :
    flagsConsistent (encodeFlags v w ovf) = true := by
  refine flagsConsistent_of_codec ?_
  rintro ⟨zero, sign⟩
  rw [of_decide_eq_true zero] at sign
  cases sign

theorem flagsConsistent_retargetFlags (hm : HeightIncMode) (nm : NegQuotMode) (x : RetargetInputs) (r : Int) :
    flagsConsistent (retargetFlags hm nm x r) = true := by
  refine (flagsConsistent_iff _).2 ⟨not_zero_and_neg r, not_spanLo_and_spanHi hm nm x r, fun notDue => ?_⟩
  rw [retargetFlags_of_not_due nm notDue]
  exact ⟨rfl, rfl, rfl, rfl⟩

/-- The flags of an outcome; an error leaves them as they were (R173). -/
def outcomeFlags (o : CommandOutcome) (before : Flags) : Flags :=
  match o with
  | .success _ f => f
  | .error _ => before

theorem commit_flags (o : CommandOutcome) (s : State) : (commit o s).flags = outcomeFlags o s.flags := by
  cases o <;> rfl

theorem flagsConsistent_instrOutcome (i : Instr) (s : State) {f : Flags} (hf : flagsConsistent f = true) :
    flagsConsistent (outcomeFlags (instrOutcome i s) f) = true := by
  cases i with
  | nop => exact flagsConsistent_clear
  | decode dst src => exact flagsConsistent_decodeFlags _
  | encode dst src =>
    cases answer : compactEncode (targetValue (readTg src s)) with
    | range => rw [instrOutcome, encodeOutcome_range answer]; exact hf
    | word w ovf => rw [instrOutcome, encodeOutcome_word answer]; exact flagsConsistent_encodeFlags _ _ _
  | retarget dst =>
    rw [instrOutcome, retargetOutcome_eq]
    cases nextTarget Config.heightIncMode Config.negQuotMode (retargetInputs s) with
    | config => exact hf
    | epoch => exact hf
    | target r => exact flagsConsistent_retargetFlags _ _ _ _

theorem flagsConsistent_wordOutcome (w : Word) (s : State) {f : Flags} (hf : flagsConsistent f = true) :
    flagsConsistent (outcomeFlags (wordOutcome w s) f) = true := by
  cases decoded : decodeWord w with
  | ok i => rw [wordOutcome_ok decoded]; exact flagsConsistent_instrOutcome i s hf
  | error e => rw [wordOutcome, decoded]; exact hf

/-! ## The engine, CMD and STATUS (R36, R171, R175) -/

theorem busyConsistent_iff (s : State) :
    busyConsistent s = true ↔
      ∀ w, s.engine = .busy w → s.cmd = w ∧ s.status.done = false ∧ s.status.err = none := by
  unfold busyConsistent
  cases s.engine with
  | idle => simp
  | busy w => simp [and_assoc]

theorem busyConsistent_of_idle {s : State} (h : s.engine = .idle) : busyConsistent s = true := by
  rw [busyConsistent, h]

theorem inv_takeCycle {s : State} (h : Inv s) : Inv (takeCycle s) := h

/-- A state that keeps the engine, CMD, ERR and FLAGS, and sets no DONE, keeps the invariant. -/
theorem inv_of_keeps {s t : State} (h : Inv s) (engine : t.engine = s.engine) (cmd : t.cmd = s.cmd)
    (flags : t.flags = s.flags) (err : t.status.err = s.status.err)
    (done : s.status.done = false → t.status.done = false) : Inv t := by
  obtain ⟨agree, consistent⟩ := h
  rw [busyConsistent_iff] at agree
  refine ⟨(busyConsistent_iff t).2 fun w inFlight => ?_, flags ▸ consistent⟩
  obtain ⟨cmdIs, notDone, noErr⟩ := agree w (engine ▸ inFlight)
  exact ⟨cmd.trans cmdIs, done notDone, err.trans noErr⟩

theorem inv_commit_wordOutcome (w : Word) {s : State} (h : Inv s) : Inv (commit (wordOutcome w s) s) := by
  obtain ⟨idle, -⟩ := commit_ends (wordOutcome w s) s
  obtain ⟨-, consistent⟩ := h
  exact ⟨busyConsistent_of_idle idle, commit_flags _ s ▸ flagsConsistent_wordOutcome w s consistent⟩

theorem inv_hostWriteReg (r : WindowReg) (v : Word) {s : State} (h : Inv s) : Inv (hostWriteReg r v s) := by
  rcases hostWriteReg_cases r v s with ⟨-, e⟩ | ⟨-, -, e⟩ | ⟨-, -, e⟩ | ⟨-, -, -, e⟩ <;> rw [e]
  · refine inv_of_keeps h rfl rfl rfl rfl fun notDone => ?_ -- STATUS
    rw [clearStatus_status, notDone, Bool.false_and]
  · exact inv_of_keeps h rfl rfl rfl rfl id -- dropped
  · obtain ⟨-, consistent⟩ := h -- issued
    refine ⟨(busyConsistent_iff _).2 fun w inFlight => ?_, consistent⟩
    cases inFlight
    exact ⟨rfl, rfl, rfl⟩
  · obtain ⟨engine, status, cmd, flags, -⟩ := writeReg_keeps r v s
    exact inv_of_keeps h engine cmd flags (by rw [status]) (by rw [status]; exact id)

theorem inv_serveCycle (a : Option Access) {s : State} (h : Inv s) : Inv (serveCycle a s) := by
  rcases serveCycle_cases a s with e | ⟨x, -, e⟩ <;> rw [e]
  · exact h
  · have effect : Inv (accessEffect x s) := by
      rcases accessEffect_cases x s with e | ⟨r, v, e⟩ <;> rw [e]
      · exact h
      · exact inv_hostWriteReg r v h
    exact inv_of_keeps effect rfl rfl rfl rfl id

/-- Settles O56: the engine is Idle and every FLAGS bit is 0. -/
theorem invariantAtReset : Obligations.InvariantAtReset :=
  ⟨busyConsistent_of_idle rfl, flagsConsistent_clear⟩

theorem inv_resetCycle (a : Option Access) (s : State) : Inv (resetCycle a s) :=
  inv_of_keeps invariantAtReset rfl rfl rfl rfl id

/-- Settles O57: a step is a reset, a transaction, or a commit and then a transaction, and each keeps the invariant. -/
theorem everyStepKeepsInvariant : Obligations.EveryStepKeepsInvariant := by
  intro s t inv h
  rcases step_cases s with ⟨-, e⟩ | ⟨-, -, e⟩ | ⟨-, w, -, -, e⟩ <;> cases e.symm.trans h
  · exact inv_resetCycle _ _
  · exact inv_serveCycle _ (inv_takeCycle inv)
  · exact inv_serveCycle _ (inv_commit_wordOutcome w (inv_takeCycle inv))

end Sys2Proof.Proofs
